-- ==== Sys2Proof/Word.lean ====
section
/-! DEFINITION. The value types of the core: words, bytes, the instruction counter and register numbers. -/

namespace Sys2Proof

/-- A register value, a PC value, an address or an immediate: the `u32` of 00_scope.md R12. -/
abbrev Word := BitVec 32

/-- One byte of memory (20_memory.md R54) or one console character (49_system.md R272). -/
abbrev Byte := BitVec 8

/-- The instruction counter, 64 bits wide (10_state.md R29). -/
abbrev Counter := BitVec 64

/-- A register number (10_state.md R20): the type makes an index outside 0..31 unrepresentable
(93_implementation_defined.md U6). -/
abbrev RegIdx := Fin 32

/-- Register a0, where ECALL passes a character (10_state.md R23, 49_system.md R272, R273). -/
abbrev a0 : RegIdx := 10

/-- Register a7, where ECALL reads the call number (10_state.md R23, 49_system.md R271). -/
abbrev a7 : RegIdx := 17

end Sys2Proof
end

