-- ==== Sys2Proof/WellFormed.lean ====
section
/-! DEFINITION. Which instructions an encoding exists for: each immediate must be one its format can carry. -/

namespace Sys2Proof

/-- An immediate the I and S formats can carry: twelve bits, signed (30_encoding.md R84, R85, R103). -/
def fitsImm12 (imm : Word) : Bool := decide (-2048 ≤ imm.toInt) && decide (imm.toInt ≤ 2047)

/-- An immediate the B format can carry: even, -4096 to +4094 (30_encoding.md R86). -/
def fitsImmB (imm : Word) : Bool :=
  decide (-4096 ≤ imm.toInt) && decide (imm.toInt ≤ 4094) && decide (imm.toNat % 2 = 0)

/-- An immediate the J format can carry: even, -1048576 to +1048574 (30_encoding.md R88). -/
def fitsImmJ (imm : Word) : Bool :=
  decide (-1048576 ≤ imm.toInt) && decide (imm.toInt ≤ 1048574) && decide (imm.toNat % 2 = 0)

/-- An immediate the U format can carry: the low 12 bits are zero (30_encoding.md R87). -/
def fitsImmU (imm : Word) : Bool := decide (imm.toNat % 4096 = 0)

/-- The instruction has an encoding. Register numbers and shift amounts are in range by their types. -/
def Instr.wellFormed : Instr → Bool
  | .lui _ imm | .auipc _ imm => fitsImmU imm
  | .jal _ imm => fitsImmJ imm
  | .jalr _ _ imm => fitsImm12 imm
  | .beq _ _ imm | .bne _ _ imm | .blt _ _ imm
  | .bge _ _ imm | .bltu _ _ imm | .bgeu _ _ imm => fitsImmB imm
  | .lb _ _ imm | .lh _ _ imm | .lw _ _ imm | .lbu _ _ imm | .lhu _ _ imm => fitsImm12 imm
  | .sb _ _ imm | .sh _ _ imm | .sw _ _ imm => fitsImm12 imm
  | .addi _ _ imm | .slti _ _ imm | .sltiu _ _ imm
  | .xori _ _ imm | .ori _ _ imm | .andi _ _ imm => fitsImm12 imm
  | .slli _ _ _ | .srli _ _ _ | .srai _ _ _ => true
  | .add _ _ _ | .sub _ _ _ | .sll _ _ _ | .slt _ _ _ | .sltu _ _ _
  | .xor _ _ _ | .srl _ _ _ | .sra _ _ _ | .or _ _ _ | .and _ _ _ => true
  | .mul _ _ _ | .mulh _ _ _ | .mulhsu _ _ _ | .mulhu _ _ _
  | .div _ _ _ | .divu _ _ _ | .rem _ _ _ | .remu _ _ _ => true
  | .ecall => true

end Sys2Proof
end

