-- ==== Sys2Proof/Decode.lean ====
section
/-! DEFINITION. The decoder (30_encoding.md, 40_dispatch_and_step.md R120), total on every word and on every list of
bytes, with the encoder written from the same format tables after it, and the opcode table itself. -/

namespace Sys2Proof

/-! ### Fields and bit helpers -/

/-- `sext_N` of 00_scope.md R13: the low `n` bits of `v`, sign-extended to 32. -/
def sext (n : Nat) (v : Word) : Word := (v.setWidth n).signExtend 32

/-- `zext_N` of 00_scope.md R13: the low `n` bits of `v`, zero-extended to 32. -/
def zext (n : Nat) (v : Word) : Word := (v.setWidth n).setWidth 32

/-- The register a 5-bit field names (30_encoding.md R82). -/
def regOfBits (b : BitVec 5) : RegIdx := b.toFin

/-- The 5-bit field that names a register. -/
def bitsOfReg (r : RegIdx) : BitVec 5 := BitVec.ofFin r

/-- Bits 6:0 (30_encoding.md R82). -/
def opcodeOf (w : Word) : BitVec 7 := w.extractLsb' 0 7
/-- Bits 11:7 (30_encoding.md R82). -/
def rdOf (w : Word) : RegIdx := regOfBits (w.extractLsb' 7 5)
/-- Bits 14:12 (30_encoding.md R82). -/
def funct3Of (w : Word) : BitVec 3 := w.extractLsb' 12 3
/-- Bits 19:15 (30_encoding.md R82). -/
def rs1Of (w : Word) : RegIdx := regOfBits (w.extractLsb' 15 5)
/-- Bits 24:20 (30_encoding.md R82). -/
def rs2Of (w : Word) : RegIdx := regOfBits (w.extractLsb' 20 5)
/-- Bits 31:25 (30_encoding.md R82). -/
def funct7Of (w : Word) : BitVec 7 := w.extractLsb' 25 7
/-- The shift amount of SLLI, SRLI and SRAI, bits 24:20 (30_encoding.md R89). -/
def shamtOf (w : Word) : BitVec 5 := w.extractLsb' 20 5

/-- The I-type immediate (30_encoding.md R84). -/
def immI (w : Word) : Word := (w.extractLsb' 20 12).signExtend 32

/-- The S-type immediate (30_encoding.md R85). -/
def immS (w : Word) : Word := (w.extractLsb' 25 7 ++ w.extractLsb' 7 5).signExtend 32

/-- The B-type immediate (30_encoding.md R86). -/
def immB (w : Word) : Word :=
  (w.extractLsb' 31 1 ++ w.extractLsb' 7 1 ++ w.extractLsb' 25 6 ++ w.extractLsb' 8 4 ++ 0#1).signExtend 32

/-- The U-type immediate (30_encoding.md R87). -/
def immU (w : Word) : Word := w.extractLsb' 12 20 ++ 0#12

/-- The J-type immediate (30_encoding.md R88). -/
def immJ (w : Word) : Word :=
  (w.extractLsb' 31 1 ++ w.extractLsb' 12 8 ++ w.extractLsb' 20 1 ++ w.extractLsb' 21 10 ++ 0#1).signExtend 32

/-! ### Decoding one word -/

/-- Why a word is no instruction. The spec has one error for all of them, DecodeError(w) (30_encoding.md R98);
the names say which part of the map refused the word. -/
inductive Reject where
  /-- Bits 1:0 are not 11 (30_encoding.md R81). -/
  | notThirtyTwoBit
  /-- No row has this major opcode (30_encoding.md R90, R98, R99, R101). -/
  | unknownOpcode
  /-- The opcode is in the map, but no row has this funct3 (30_encoding.md R93 to R96). -/
  | unknownFunct3
  /-- The opcode and funct3 are in the map, but no row has this funct7 (30_encoding.md R91, R92). -/
  | unknownFunct7
  /-- A SYSTEM word other than ECALL: EBREAK, a CSR instruction, xRET, WFI (30_encoding.md R97). -/
  | notEcall
  /-- A list of fewer than four bytes holds no instruction word (30_encoding.md R80). -/
  | truncated
  deriving DecidableEq, Repr

/-- OP-IMM, 0x13 (30_encoding.md R91). -/
def decodeOpImm (w : Word) : Except Reject Instr :=
  match funct3Of w with
  | 0b000#3 => .ok (.addi (rdOf w) (rs1Of w) (immI w))
  | 0b001#3 =>
    match funct7Of w with
    | 0b0000000#7 => .ok (.slli (rdOf w) (rs1Of w) (shamtOf w))
    | _ => .error .unknownFunct7
  | 0b010#3 => .ok (.slti (rdOf w) (rs1Of w) (immI w))
  | 0b011#3 => .ok (.sltiu (rdOf w) (rs1Of w) (immI w))
  | 0b100#3 => .ok (.xori (rdOf w) (rs1Of w) (immI w))
  | 0b101#3 =>
    match funct7Of w with
    | 0b0000000#7 => .ok (.srli (rdOf w) (rs1Of w) (shamtOf w))
    | 0b0100000#7 => .ok (.srai (rdOf w) (rs1Of w) (shamtOf w))
    | _ => .error .unknownFunct7
  | 0b110#3 => .ok (.ori (rdOf w) (rs1Of w) (immI w))
  | 0b111#3 => .ok (.andi (rdOf w) (rs1Of w) (immI w))
  | _ => .error .unknownFunct3

/-- OP, 0x33 (30_encoding.md R92). -/
def decodeOp (w : Word) : Except Reject Instr :=
  match funct7Of w, funct3Of w with
  | 0b0000000#7, 0b000#3 => .ok (.add (rdOf w) (rs1Of w) (rs2Of w))
  | 0b0100000#7, 0b000#3 => .ok (.sub (rdOf w) (rs1Of w) (rs2Of w))
  | 0b0000000#7, 0b001#3 => .ok (.sll (rdOf w) (rs1Of w) (rs2Of w))
  | 0b0000000#7, 0b010#3 => .ok (.slt (rdOf w) (rs1Of w) (rs2Of w))
  | 0b0000000#7, 0b011#3 => .ok (.sltu (rdOf w) (rs1Of w) (rs2Of w))
  | 0b0000000#7, 0b100#3 => .ok (.xor (rdOf w) (rs1Of w) (rs2Of w))
  | 0b0000000#7, 0b101#3 => .ok (.srl (rdOf w) (rs1Of w) (rs2Of w))
  | 0b0100000#7, 0b101#3 => .ok (.sra (rdOf w) (rs1Of w) (rs2Of w))
  | 0b0000000#7, 0b110#3 => .ok (.or (rdOf w) (rs1Of w) (rs2Of w))
  | 0b0000000#7, 0b111#3 => .ok (.and (rdOf w) (rs1Of w) (rs2Of w))
  | 0b0000001#7, 0b000#3 => .ok (.mul (rdOf w) (rs1Of w) (rs2Of w))
  | 0b0000001#7, 0b001#3 => .ok (.mulh (rdOf w) (rs1Of w) (rs2Of w))
  | 0b0000001#7, 0b010#3 => .ok (.mulhsu (rdOf w) (rs1Of w) (rs2Of w))
  | 0b0000001#7, 0b011#3 => .ok (.mulhu (rdOf w) (rs1Of w) (rs2Of w))
  | 0b0000001#7, 0b100#3 => .ok (.div (rdOf w) (rs1Of w) (rs2Of w))
  | 0b0000001#7, 0b101#3 => .ok (.divu (rdOf w) (rs1Of w) (rs2Of w))
  | 0b0000001#7, 0b110#3 => .ok (.rem (rdOf w) (rs1Of w) (rs2Of w))
  | 0b0000001#7, 0b111#3 => .ok (.remu (rdOf w) (rs1Of w) (rs2Of w))
  | _, _ => .error .unknownFunct7

/-- LOAD, 0x03 (30_encoding.md R93). -/
def decodeLoad (w : Word) : Except Reject Instr :=
  match funct3Of w with
  | 0b000#3 => .ok (.lb (rdOf w) (rs1Of w) (immI w))
  | 0b001#3 => .ok (.lh (rdOf w) (rs1Of w) (immI w))
  | 0b010#3 => .ok (.lw (rdOf w) (rs1Of w) (immI w))
  | 0b100#3 => .ok (.lbu (rdOf w) (rs1Of w) (immI w))
  | 0b101#3 => .ok (.lhu (rdOf w) (rs1Of w) (immI w))
  | _ => .error .unknownFunct3

/-- STORE, 0x23 (30_encoding.md R94). -/
def decodeStore (w : Word) : Except Reject Instr :=
  match funct3Of w with
  | 0b000#3 => .ok (.sb (rs1Of w) (rs2Of w) (immS w))
  | 0b001#3 => .ok (.sh (rs1Of w) (rs2Of w) (immS w))
  | 0b010#3 => .ok (.sw (rs1Of w) (rs2Of w) (immS w))
  | _ => .error .unknownFunct3

/-- BRANCH, 0x63 (30_encoding.md R95). -/
def decodeBranch (w : Word) : Except Reject Instr :=
  match funct3Of w with
  | 0b000#3 => .ok (.beq (rs1Of w) (rs2Of w) (immB w))
  | 0b001#3 => .ok (.bne (rs1Of w) (rs2Of w) (immB w))
  | 0b100#3 => .ok (.blt (rs1Of w) (rs2Of w) (immB w))
  | 0b101#3 => .ok (.bge (rs1Of w) (rs2Of w) (immB w))
  | 0b110#3 => .ok (.bltu (rs1Of w) (rs2Of w) (immB w))
  | 0b111#3 => .ok (.bgeu (rs1Of w) (rs2Of w) (immB w))
  | _ => .error .unknownFunct3

/-- JALR, 0x67 (30_encoding.md R96). -/
def decodeJalr (w : Word) : Except Reject Instr :=
  match funct3Of w with
  | 0b000#3 => .ok (.jalr (rdOf w) (rs1Of w) (immI w))
  | _ => .error .unknownFunct3

/-- SYSTEM, 0x73: one word only (30_encoding.md R97). -/
def decodeSystem (w : Word) : Except Reject Instr :=
  if w = 0x00000073#32 then .ok .ecall else .error .notEcall

/-- The decoder (40_dispatch_and_step.md R120; major opcodes 30_encoding.md R90). -/
def decode (w : Word) : Except Reject Instr :=
  match opcodeOf w with
  | 0b0000011#7 => decodeLoad w
  | 0b0010011#7 => decodeOpImm w
  | 0b0010111#7 => .ok (.auipc (rdOf w) (immU w))
  | 0b0100011#7 => decodeStore w
  | 0b0110011#7 => decodeOp w
  | 0b0110111#7 => .ok (.lui (rdOf w) (immU w))
  | 0b1100011#7 => decodeBranch w
  | 0b1100111#7 => decodeJalr w
  | 0b1101111#7 => .ok (.jal (rdOf w) (immJ w))
  | 0b1110011#7 => decodeSystem w
  | _ => if w.extractLsb' 0 2 = 0b11#2 then .error .unknownOpcode else .error .notThirtyTwoBit

/-! ### Bytes -/

/-- The word four bytes form, the first at the lowest address: little-endian (20_memory.md R53). -/
def wordOfBytes (b0 b1 b2 b3 : Byte) : Word := b3 ++ b2 ++ b1 ++ b0

/-- Byte `i` of a word, byte 0 the least significant (20_memory.md R53). -/
def byteOfWord (w : Word) (i : Nat) : Byte := w.extractLsb' (8 * i) 8

/-- Decoding from any list of bytes: the instruction and the bytes after it (30_encoding.md R80). -/
def decodeBytes : List Byte → Except Reject (Instr × List Byte)
  | b0 :: b1 :: b2 :: b3 :: rest =>
    match decode (wordOfBytes b0 b1 b2 b3) with
    | .ok i => .ok (i, rest)
    | .error r => .error r
  | _ => .error .truncated

/-- The instruction this decoder reads from an opcode-table word: `w`'s low `nbits` bits, every bit above them
zero, laid out as the four bytes the hardware stores (30_encoding.md R80, 20_memory.md R53). -/
def decodeTableWord (nbits w : Nat) : Option Instr :=
  let word : Word := BitVec.ofNat 32 (w % 2 ^ nbits)
  match decodeBytes [byteOfWord word 0, byteOfWord word 1, byteOfWord word 2, byteOfWord word 3] with
  | .ok (i, _) => some i
  | .error _ => none

/-! ### The encoder, from the format table of 30_encoding.md R83 -/

/-- The R format (30_encoding.md R83). -/
def encodeR (funct7 : BitVec 7) (rs2 rs1 : RegIdx) (funct3 : BitVec 3) (rd : RegIdx) (op : BitVec 7) : Word :=
  funct7 ++ bitsOfReg rs2 ++ bitsOfReg rs1 ++ funct3 ++ bitsOfReg rd ++ op

/-- The I format (30_encoding.md R83, R84). -/
def encodeI (imm : Word) (rs1 : RegIdx) (funct3 : BitVec 3) (rd : RegIdx) (op : BitVec 7) : Word :=
  imm.extractLsb' 0 12 ++ bitsOfReg rs1 ++ funct3 ++ bitsOfReg rd ++ op

/-- The I format of the immediate shifts (30_encoding.md R83, R89). -/
def encodeShift (funct7 : BitVec 7) (shamt : BitVec 5) (rs1 : RegIdx) (funct3 : BitVec 3) (rd : RegIdx)
    (op : BitVec 7) : Word :=
  funct7 ++ shamt ++ bitsOfReg rs1 ++ funct3 ++ bitsOfReg rd ++ op

/-- The S format (30_encoding.md R83, R85). -/
def encodeS (imm : Word) (rs2 rs1 : RegIdx) (funct3 : BitVec 3) (op : BitVec 7) : Word :=
  imm.extractLsb' 5 7 ++ bitsOfReg rs2 ++ bitsOfReg rs1 ++ funct3 ++ imm.extractLsb' 0 5 ++ op

/-- The B format (30_encoding.md R83, R86). -/
def encodeB (imm : Word) (rs2 rs1 : RegIdx) (funct3 : BitVec 3) (op : BitVec 7) : Word :=
  imm.extractLsb' 12 1 ++ imm.extractLsb' 5 6 ++ bitsOfReg rs2 ++ bitsOfReg rs1 ++ funct3 ++
    imm.extractLsb' 1 4 ++ imm.extractLsb' 11 1 ++ op

/-- The U format (30_encoding.md R83, R87). -/
def encodeU (imm : Word) (rd : RegIdx) (op : BitVec 7) : Word :=
  imm.extractLsb' 12 20 ++ bitsOfReg rd ++ op

/-- The J format (30_encoding.md R83, R88). -/
def encodeJ (imm : Word) (rd : RegIdx) (op : BitVec 7) : Word :=
  imm.extractLsb' 20 1 ++ imm.extractLsb' 1 10 ++ imm.extractLsb' 11 1 ++ imm.extractLsb' 12 8 ++
    bitsOfReg rd ++ op

/-- The word of a well-formed instruction (30_encoding.md R90 to R97). -/
def encode : Instr → Word
  | .lui rd imm => encodeU imm rd 0b0110111
  | .auipc rd imm => encodeU imm rd 0b0010111
  | .jal rd imm => encodeJ imm rd 0b1101111
  | .jalr rd rs1 imm => encodeI imm rs1 0b000 rd 0b1100111
  | .beq rs1 rs2 imm => encodeB imm rs2 rs1 0b000 0b1100011
  | .bne rs1 rs2 imm => encodeB imm rs2 rs1 0b001 0b1100011
  | .blt rs1 rs2 imm => encodeB imm rs2 rs1 0b100 0b1100011
  | .bge rs1 rs2 imm => encodeB imm rs2 rs1 0b101 0b1100011
  | .bltu rs1 rs2 imm => encodeB imm rs2 rs1 0b110 0b1100011
  | .bgeu rs1 rs2 imm => encodeB imm rs2 rs1 0b111 0b1100011
  | .lb rd rs1 imm => encodeI imm rs1 0b000 rd 0b0000011
  | .lh rd rs1 imm => encodeI imm rs1 0b001 rd 0b0000011
  | .lw rd rs1 imm => encodeI imm rs1 0b010 rd 0b0000011
  | .lbu rd rs1 imm => encodeI imm rs1 0b100 rd 0b0000011
  | .lhu rd rs1 imm => encodeI imm rs1 0b101 rd 0b0000011
  | .sb rs1 rs2 imm => encodeS imm rs2 rs1 0b000 0b0100011
  | .sh rs1 rs2 imm => encodeS imm rs2 rs1 0b001 0b0100011
  | .sw rs1 rs2 imm => encodeS imm rs2 rs1 0b010 0b0100011
  | .addi rd rs1 imm => encodeI imm rs1 0b000 rd 0b0010011
  | .slti rd rs1 imm => encodeI imm rs1 0b010 rd 0b0010011
  | .sltiu rd rs1 imm => encodeI imm rs1 0b011 rd 0b0010011
  | .xori rd rs1 imm => encodeI imm rs1 0b100 rd 0b0010011
  | .ori rd rs1 imm => encodeI imm rs1 0b110 rd 0b0010011
  | .andi rd rs1 imm => encodeI imm rs1 0b111 rd 0b0010011
  | .slli rd rs1 sh => encodeShift 0b0000000 sh rs1 0b001 rd 0b0010011
  | .srli rd rs1 sh => encodeShift 0b0000000 sh rs1 0b101 rd 0b0010011
  | .srai rd rs1 sh => encodeShift 0b0100000 sh rs1 0b101 rd 0b0010011
  | .add rd rs1 rs2 => encodeR 0b0000000 rs2 rs1 0b000 rd 0b0110011
  | .sub rd rs1 rs2 => encodeR 0b0100000 rs2 rs1 0b000 rd 0b0110011
  | .sll rd rs1 rs2 => encodeR 0b0000000 rs2 rs1 0b001 rd 0b0110011
  | .slt rd rs1 rs2 => encodeR 0b0000000 rs2 rs1 0b010 rd 0b0110011
  | .sltu rd rs1 rs2 => encodeR 0b0000000 rs2 rs1 0b011 rd 0b0110011
  | .xor rd rs1 rs2 => encodeR 0b0000000 rs2 rs1 0b100 rd 0b0110011
  | .srl rd rs1 rs2 => encodeR 0b0000000 rs2 rs1 0b101 rd 0b0110011
  | .sra rd rs1 rs2 => encodeR 0b0100000 rs2 rs1 0b101 rd 0b0110011
  | .or rd rs1 rs2 => encodeR 0b0000000 rs2 rs1 0b110 rd 0b0110011
  | .and rd rs1 rs2 => encodeR 0b0000000 rs2 rs1 0b111 rd 0b0110011
  | .mul rd rs1 rs2 => encodeR 0b0000001 rs2 rs1 0b000 rd 0b0110011
  | .mulh rd rs1 rs2 => encodeR 0b0000001 rs2 rs1 0b001 rd 0b0110011
  | .mulhsu rd rs1 rs2 => encodeR 0b0000001 rs2 rs1 0b010 rd 0b0110011
  | .mulhu rd rs1 rs2 => encodeR 0b0000001 rs2 rs1 0b011 rd 0b0110011
  | .div rd rs1 rs2 => encodeR 0b0000001 rs2 rs1 0b100 rd 0b0110011
  | .divu rd rs1 rs2 => encodeR 0b0000001 rs2 rs1 0b101 rd 0b0110011
  | .rem rd rs1 rs2 => encodeR 0b0000001 rs2 rs1 0b110 rd 0b0110011
  | .remu rd rs1 rs2 => encodeR 0b0000001 rs2 rs1 0b111 rd 0b0110011
  | .ecall => 0x00000073

/-- The four bytes of a well-formed instruction, lowest address first (30_encoding.md R80, 20_memory.md R53). -/
def encodeBytes (i : Instr) : List Byte :=
  [byteOfWord (encode i) 0, byteOfWord (encode i) 1, byteOfWord (encode i) 2, byteOfWord (encode i) 3]

/-! ### The opcode table -/

/-- The mnemonic of an instruction's row in `opcode_table.json`. -/
def Instr.mnemonic : Instr → String
  | .lui .. => "LUI"
  | .auipc .. => "AUIPC"
  | .jal .. => "JAL"
  | .jalr .. => "JALR"
  | .beq .. => "BEQ"
  | .bne .. => "BNE"
  | .blt .. => "BLT"
  | .bge .. => "BGE"
  | .bltu .. => "BLTU"
  | .bgeu .. => "BGEU"
  | .lb .. => "LB"
  | .lh .. => "LH"
  | .lw .. => "LW"
  | .lbu .. => "LBU"
  | .lhu .. => "LHU"
  | .sb .. => "SB"
  | .sh .. => "SH"
  | .sw .. => "SW"
  | .addi .. => "ADDI"
  | .slti .. => "SLTI"
  | .sltiu .. => "SLTIU"
  | .xori .. => "XORI"
  | .ori .. => "ORI"
  | .andi .. => "ANDI"
  | .slli .. => "SLLI"
  | .srli .. => "SRLI"
  | .srai .. => "SRAI"
  | .add .. => "ADD"
  | .sub .. => "SUB"
  | .sll .. => "SLL"
  | .slt .. => "SLT"
  | .sltu .. => "SLTU"
  | .xor .. => "XOR"
  | .srl .. => "SRL"
  | .sra .. => "SRA"
  | .or .. => "OR"
  | .and .. => "AND"
  | .mul .. => "MUL"
  | .mulh .. => "MULH"
  | .mulhsu .. => "MULHSU"
  | .mulhu .. => "MULHU"
  | .div .. => "DIV"
  | .divu .. => "DIVU"
  | .rem .. => "REM"
  | .remu .. => "REMU"
  | .ecall .. => "ECALL"

/-- The rows of 41_upper_immediate.md: mnemonic, match, mask. -/
def upperRows : List (String × Word × Word) :=
  [("LUI", 0x00000037, 0x0000007F),
   ("AUIPC", 0x00000017, 0x0000007F)]

/-- The rows of 42_jumps.md: mnemonic, match, mask. -/
def jumpRows : List (String × Word × Word) :=
  [("JAL", 0x0000006F, 0x0000007F),
   ("JALR", 0x00000067, 0x0000707F)]

/-- The rows of 43_branches.md: mnemonic, match, mask. -/
def branchRows : List (String × Word × Word) :=
  [("BEQ", 0x00000063, 0x0000707F),
   ("BNE", 0x00001063, 0x0000707F),
   ("BLT", 0x00004063, 0x0000707F),
   ("BGE", 0x00005063, 0x0000707F),
   ("BLTU", 0x00006063, 0x0000707F),
   ("BGEU", 0x00007063, 0x0000707F)]

/-- The rows of 44_loads.md: mnemonic, match, mask. -/
def loadRows : List (String × Word × Word) :=
  [("LB", 0x00000003, 0x0000707F),
   ("LH", 0x00001003, 0x0000707F),
   ("LW", 0x00002003, 0x0000707F),
   ("LBU", 0x00004003, 0x0000707F),
   ("LHU", 0x00005003, 0x0000707F)]

/-- The rows of 45_stores.md: mnemonic, match, mask. -/
def storeRows : List (String × Word × Word) :=
  [("SB", 0x00000023, 0x0000707F),
   ("SH", 0x00001023, 0x0000707F),
   ("SW", 0x00002023, 0x0000707F)]

/-- The rows of 46_alu_immediate.md: mnemonic, match, mask. -/
def aluImmRows : List (String × Word × Word) :=
  [("ADDI", 0x00000013, 0x0000707F),
   ("SLTI", 0x00002013, 0x0000707F),
   ("SLTIU", 0x00003013, 0x0000707F),
   ("XORI", 0x00004013, 0x0000707F),
   ("ORI", 0x00006013, 0x0000707F),
   ("ANDI", 0x00007013, 0x0000707F),
   ("SLLI", 0x00001013, 0xFE00707F),
   ("SRLI", 0x00005013, 0xFE00707F),
   ("SRAI", 0x40005013, 0xFE00707F)]

/-- The rows of 47_alu_register.md: mnemonic, match, mask. -/
def aluRegRows : List (String × Word × Word) :=
  [("ADD", 0x00000033, 0xFE00707F),
   ("SUB", 0x40000033, 0xFE00707F),
   ("SLL", 0x00001033, 0xFE00707F),
   ("SLT", 0x00002033, 0xFE00707F),
   ("SLTU", 0x00003033, 0xFE00707F),
   ("XOR", 0x00004033, 0xFE00707F),
   ("SRL", 0x00005033, 0xFE00707F),
   ("SRA", 0x40005033, 0xFE00707F),
   ("OR", 0x00006033, 0xFE00707F),
   ("AND", 0x00007033, 0xFE00707F)]

/-- The rows of 48_muldiv.md: mnemonic, match, mask. -/
def mulDivRows : List (String × Word × Word) :=
  [("MUL", 0x02000033, 0xFE00707F),
   ("MULH", 0x02001033, 0xFE00707F),
   ("MULHSU", 0x02002033, 0xFE00707F),
   ("MULHU", 0x02003033, 0xFE00707F),
   ("DIV", 0x02004033, 0xFE00707F),
   ("DIVU", 0x02005033, 0xFE00707F),
   ("REM", 0x02006033, 0xFE00707F),
   ("REMU", 0x02007033, 0xFE00707F)]

/-- The rows of 49_system.md: mnemonic, match, mask. -/
def systemRows : List (String × Word × Word) :=
  [("ECALL", 0x00000073, 0xFFFFFFFF)]

/-- The 46 rows of `opcode_table.json`, as (mnemonic, match, mask). The decoder does not read the table: that the two
agree is a statement about the model (30_encoding.md R98, R102). -/
def opcodeTable : List (String × Word × Word) :=
  upperRows ++ jumpRows ++ branchRows ++ loadRows ++ storeRows ++ aluImmRows ++ aluRegRows ++ mulDivRows ++
    systemRows

/-- A word matches a row when its masked bits are the row's match value (30_encoding.md R98). -/
def rowMatches (w : Word) (row : String × Word × Word) : Bool := w &&& row.2.2 == row.2.1

end Sys2Proof
end

