-- ==== Sys2Proof/Config.lean ====
section
/-! DEFINITION. What no source fixes: the parameters of a session (00_scope.md R10) and the free value for
memory the loader's image does not name. -/

namespace Sys2Proof

/-- What a misaligned halfword or word access does (20_memory.md R58, decision D3). -/
inductive MisalignedDataPolicy where
  /-- The access raises MisalignedDataAccess before any byte moves: the spec's default. -/
  | fault
  /-- The access is made byte by byte, in one step, under the mapped check on every byte. -/
  | split
  deriving DecidableEq, Repr

/-- A run of mapped byte addresses, from `base` up to but not including `base + size`. -/
structure Region where
  base : Nat
  size : Nat
  deriving DecidableEq, Repr

/-- The parameters of one session that every step reads and none changes (00_scope.md R10).
DESIGN CHOICE (log entry 2): the spec's `mapped : u32 -> Bool` is held as a list of regions, which can say
any such function and stays plain data. -/
structure Params where
  /-- The mapped region (20_memory.md R52). -/
  mapped : List Region
  /-- `MisalignedDataPolicy` (20_memory.md R58). -/
  misaligned : MisalignedDataPolicy
  deriving DecidableEq, Repr

/-- The parameters `State.reset` takes. DESIGN CHOICE: every address mapped (log entry 2); the policy is the
spec's default `fault` (20_memory.md R58, log entry 5). -/
def Params.atReset : Params := { mapped := [{ base := 0, size := 2 ^ 32 }], misaligned := .fault }

/-- The entry address `State.reset` takes. DESIGN CHOICE (log entry 1): the spec leaves `entry_pc` to the loader
(70_reset_and_hazards.md R341). -/
def Config.entryPc : Word := 0

/-- `mem0` at an address the loader's image does not list: a FREE VALUE (20_memory.md R54, decision D27,
93_implementation_defined.md U2: a proof must hold for any value). Log entry 3. -/
opaque Config.mem0 : Word → Byte

/-- `TraceRecord` (00_scope.md R10, 10_state.md R38): a parameter whose content no source gives and no rule reads
(decision D23, 93_implementation_defined.md U11). DESIGN CHOICE (log entry 8): a record is written down as the bytes of
its content, which can say any record and stays plain data; which bytes they are is the free value
`Config.traceContent`. -/
structure TraceRecord where
  content : List Byte
  deriving DecidableEq, Repr

end Sys2Proof
end

