-- ==== Sys2Proof/Machine/State.lean ====
section
/-! DEFINITION. The state of one session (10_state.md R40 with the external state of the memory unit, the console
and the trace sink), and the state after reset. Plain data. -/

namespace Sys2Proof.Machine

/-- What an access to memory was for (60_exceptions.md R301, MemoryAccessError). -/
inductive AccessKind where
  | fetch | load | store
  deriving DecidableEq, Repr

/-- What met a misaligned instruction address (60_exceptions.md R301, InstructionAddressMisaligned). -/
inductive TransferKind where
  | fetch | jump | branch
  deriving DecidableEq, Repr

/-- What a misaligned data access was (60_exceptions.md R301, MisalignedDataAccess). -/
inductive DataKind where
  | load | store
  deriving DecidableEq, Repr

/-- The error kinds, each with the information the status records (60_exceptions.md R301). -/
inductive ErrorKind where
  /-- 60_exceptions.md R302: the word matches no row of the opcode table. -/
  | decodeError (word : Word)
  /-- 60_exceptions.md R303: a byte of the access is unmapped; `addr` is the first address of the access. -/
  | memoryAccessError (kind : AccessKind) (addr : Word)
  /-- 60_exceptions.md R304: x17 holds no known call number. -/
  | unsupportedSyscall (number : Word)
  /-- 60_exceptions.md R305: the address is not a multiple of 4. -/
  | instructionAddressMisaligned (kind : TransferKind) (addr : Word)
  /-- 60_exceptions.md R306: a misaligned halfword or word access under policy `fault`. -/
  | misalignedDataAccess (kind : DataKind) (addr : Word)
  deriving DecidableEq, Repr

/-- The run status (10_state.md R32). -/
inductive Status where
  | running
  | haltedNormal
  | haltedError (error : ErrorKind)
  deriving DecidableEq, Repr

/-- The bytes the memory unit holds, as (address, byte) pairs, addresses strictly rising. An address that is not
listed still holds its byte of the loader's image, `Config.mem0` (20_memory.md R54, log entries 3 and 4). -/
abbrev Memory := List Host.Cell

/-- The canonical form of a memory: addresses strictly rising, every one a 32-bit address. At this level an unlisted
address reads as "no value listed", which no entry can equal, so equal memories are equal lists (log entry 4). -/
abbrev Memory.wf (m : Memory) : Prop := m.Pairwise (fun c d => c.1 < d.1) ∧ ∀ c ∈ m, c.1 < 2 ^ 32

/-- Everything the spec gives the machine between two steps. -/
structure State where
  /-- x0 to x31 (10_state.md R20). Read and written through `readReg` and `RegFile.write`. -/
  regs : Vector Word 32
  /-- The program counter (10_state.md R25). -/
  pc : Word
  /-- The instruction counter (10_state.md R29). -/
  instret : Counter
  /-- The run status (10_state.md R32). -/
  status : Status
  /-- The memory unit's bytes (20_memory.md R54). -/
  mem : Memory
  /-- The characters the console host has supplied and no read has taken, oldest first (49_system.md R272). -/
  consoleIn : List Byte
  /-- The characters the core has sent to the console, oldest first (49_system.md R273). -/
  consoleOut : List Byte
  /-- The trace sink: none when none is attached, else the records it has received, oldest first (10_state.md R38). -/
  trace : Option (List TraceRecord)
  /-- The parameters of the session (00_scope.md R10), which no step changes. -/
  params : Params
  deriving DecidableEq, Repr

/-- Why the core has NO step. An error of the spec is not one of these: it is a next state with a halted status. -/
inductive Fault where
  /-- Raised by `step` when the status is halted: "A halted status is final: no step is taken from it"
  (10_state.md R32, 40_dispatch_and_step.md R126). Safe. -/
  | sessionHalted
  /-- Raised by ECALL with x17 = 1 while the console host has supplied no byte: the core is blocked and has no step,
  nothing has changed, and a byte supplied later lets the same ECALL go on (49_system.md R272; treatment `stuck`
  of 93_implementation_defined.md U8). Safe. -/
  | consoleBlocked
  deriving DecidableEq, Repr

/-- Why an instruction has no meaning in this model. -/
inductive Refusal where
  /-- Raised by `exec` for an instruction without a meaning; no arm of this model raises it. Safe. -/
  | notModelled (mnemonic : String)
  deriving DecidableEq, Repr

/-- What running an instruction or taking a step answers. -/
abbrev Result := Host.Outcome State Fault Refusal

/-- The state at the start of a session (70_reset_and_hazards.md R340): registers and counter zero, status Running,
nothing read from or written to the console. The session's parameters are the ones log entries 1, 2, 5, 6 and 8 name. -/
def State.reset : State where
  regs := Vector.replicate 32 0
  pc := Config.entryPc
  instret := 0
  status := .running
  mem := []
  consoleIn := []
  consoleOut := []
  trace := none
  params := Params.atReset

end Sys2Proof.Machine
end

