-- ==== Sys2Proof/Machine/Ops.lean ====
section
/-! DEFINITION. The named operations over registers, memory, console and status: reading and writing a register, the
access primitives MemRead and MemWrite, fetching, raising an error, and committing an instruction's effects. -/

namespace Sys2Proof.Machine

/-! ### Registers -/

/-- `x[r]`: always succeeds, and register 0 reads zero whatever was written (10_state.md R21). -/
def State.readReg (s : State) (r : RegIdx) : Word := if r = 0 then 0 else s.regs[r]

/-- `x[r] <- v`: nothing for register 0, else the value verbatim (10_state.md R22). -/
def RegFile.write (regs : Vector Word 32) (r : RegIdx) (v : Word) : Vector Word 32 :=
  if r = 0 then regs else regs.set r v

/-! ### Memory -/

/-- The byte listed at an address, if one is. -/
def Memory.read? : Memory → Nat → Option Byte
  | [], _ => none
  | (a, b) :: rest, k => if k = a then some b else Memory.read? rest k

/-- Set the byte at an address, keeping the canonical form. -/
def Memory.write : Memory → Nat → Byte → Memory
  | [], k, v => [(k, v)]
  | (a, b) :: rest, k, v =>
    if k < a then (k, v) :: (a, b) :: rest
    else if k = a then (k, v) :: rest
    else (a, b) :: Memory.write rest k v

/-- The byte the memory unit holds at an address (20_memory.md R54): the byte listed, else the byte of the loader's
image that no source fixes. -/
def State.byteAt (s : State) (a : Word) : Byte := (s.mem.read? a.toNat).getD (Config.mem0 a)

/-- Set consecutive bytes, the first at `a`, the byte addresses modulo 2^32 (20_memory.md R56, R71). -/
def Memory.writeBytes : Memory → Word → List Byte → Memory
  | m, _, [] => m
  | m, a, b :: rest => Memory.writeBytes (Memory.write m a.toNat b) (a + 1) rest

/-- The sizes of an access: 1, 2 and 4 bytes (20_memory.md R61). -/
inductive Width where
  | byte | half | word
  deriving DecidableEq, Repr

/-- The number of bytes of an access. -/
def Width.bytes : Width → Nat
  | .byte => 1
  | .half => 2
  | .word => 4

/-- `mapped` at one byte address (20_memory.md R52). -/
def State.isMapped (s : State) (a : Word) : Bool :=
  s.params.mapped.any fun r => decide (r.base ≤ a.toNat) && decide (a.toNat < r.base + r.size)

/-- Every byte of an access of `n` bytes at `a` is mapped, byte addresses modulo 2^32 (20_memory.md R52, R71). -/
def State.allMapped (s : State) (a : Word) (n : Nat) : Bool :=
  (List.range n).all fun i => s.isMapped (a + BitVec.ofNat 32 i)

/-- The address is a multiple of `n` (20_memory.md R57). -/
def isAligned (a : Word) (n : Nat) : Bool := a.toNat % n == 0

/-- The kind of a data access as MemoryAccessError records it (60_exceptions.md R301). -/
def DataKind.access : DataKind → AccessKind
  | .load => .load
  | .store => .store

/-- The checks of MemRead and MemWrite, alignment before mapping (20_memory.md R55, R56, R58; 60_exceptions.md R309):
the error the access raises, if it raises one. -/
def State.accessError (s : State) (kind : DataKind) (a : Word) (n : Nat) : Option ErrorKind :=
  if s.params.misaligned = .fault ∧ isAligned a n = false then some (.misalignedDataAccess kind a)
  else if s.allMapped a n = false then some (.memoryAccessError kind.access a)
  else none

/-- The bytes at an address, little-endian, zero-extended to 32 bits (20_memory.md R53, R55). -/
def State.bytesAt (s : State) (a : Word) : Width → Word
  | .byte => (s.byteAt a).setWidth 32
  | .half => (s.byteAt (a + 1) ++ s.byteAt a).setWidth 32
  | .word => wordOfBytes (s.byteAt a) (s.byteAt (a + 1)) (s.byteAt (a + 2)) (s.byteAt (a + 3))

/-- `MemRead(addr, n)` (20_memory.md R55). -/
def State.memRead (s : State) (a : Word) (width : Width) : Except ErrorKind Word :=
  match s.accessError .load a width.bytes with
  | some e => .error e
  | none => .ok (s.bytesAt a width)

/-- The low bytes of a value, least significant first: what a store of this width writes (20_memory.md R53, R56). -/
def bytesOf (v : Word) : Width → List Byte
  | .byte => [byteOfWord v 0]
  | .half => [byteOfWord v 0, byteOfWord v 1]
  | .word => [byteOfWord v 0, byteOfWord v 1, byteOfWord v 2, byteOfWord v 3]

/-- `Fetch(pc)`: alignment, then mapping, then the word (20_memory.md R60). -/
def State.fetch (s : State) : Except ErrorKind Word :=
  if isAligned s.pc 4 = false then .error (.instructionAddressMisaligned .fetch s.pc)
  else if s.allMapped s.pc 4 = false then .error (.memoryAccessError .fetch s.pc)
  else .ok (s.bytesAt s.pc .word)

/-- The decode stage: every word the decoder rejects is DecodeError(w) (40_dispatch_and_step.md R120,
60_exceptions.md R302). -/
def decodeStage (w : Word) : Except ErrorKind Instr :=
  match decode w with
  | .ok i => .ok i
  | .error _ => .error (.decodeError w)

/-! ### Taking an error -/

/-- `raise <Kind>(info)`: the status becomes Halted(error(kind, info)) and nothing else changes
(40_dispatch_and_step.md R123, 60_exceptions.md R300, R310). There is no return from it (R311). -/
def State.raise (s : State) (e : ErrorKind) : State := { s with status := .haltedError e }

/-! ### Committing an instruction -/

/-- A store an instruction makes (40_dispatch_and_step.md R121). -/
structure Store where
  addr : Word
  width : Width
  value : Word
  deriving DecidableEq, Repr

/-- What an instruction that raised no error does (40_dispatch_and_step.md R121). `consoleRead` says that the console
byte the instruction read is taken from the input stream. -/
structure Effect where
  regWrite : Option (RegIdx × Word) := none
  memWrite : Option Store := none
  nextPc : Word
  consoleRead : Bool := false
  consoleWrite : Option Byte := none
  halt : Bool := false
  deriving DecidableEq, Repr

/-- The register file after an effect. -/
def Effect.regsAfter (e : Effect) (regs : Vector Word 32) : Vector Word 32 :=
  match e.regWrite with
  | some (r, v) => RegFile.write regs r v
  | none => regs

/-- The memory after an effect (20_memory.md R56). -/
def Effect.memAfter (e : Effect) (m : Memory) : Memory :=
  match e.memWrite with
  | some st => Memory.writeBytes m st.addr (bytesOf st.value st.width)
  | none => m

/-- The input stream after an effect (49_system.md R272). -/
def Effect.consoleInAfter (e : Effect) (input : List Byte) : List Byte :=
  if e.consoleRead then input.drop 1 else input

/-- The output stream after an effect (49_system.md R273). -/
def Effect.consoleOutAfter (e : Effect) (output : List Byte) : List Byte :=
  match e.consoleWrite with
  | some b => output ++ [b]
  | none => output

end Sys2Proof.Machine

namespace Sys2Proof

/-- The content of the record of one retired instruction: a FREE VALUE (10_state.md R38, decision D23,
93_implementation_defined.md U11), a constant without a body. No field of a record may be assumed, so it is applied to all
that a record could be made from: the whole state before the instruction and everything the instruction does. Log entry 8. -/
opaque Config.traceContent : Machine.State → Machine.Effect → List Byte

end Sys2Proof

namespace Sys2Proof.Machine

/-- The record of a retired instruction (10_state.md R38). -/
def State.traceRecord (s : State) (e : Effect) : TraceRecord := { content := Config.traceContent s e }

/-- One record to the trace sink, if one is attached (10_state.md R38). -/
def State.traceAfter (s : State) (e : Effect) : Option (List TraceRecord) := s.trace.map (· ++ [s.traceRecord e])

/-- Stage 4 of the step: apply the effects, advance pc, count the instruction, emit a trace record, halt if the
effect says so (40_dispatch_and_step.md R123, R125). -/
def State.commit (s : State) (e : Effect) : State :=
  { s with
    regs := e.regsAfter s.regs
    pc := e.nextPc
    instret := s.instret + 1
    status := if e.halt then .haltedNormal else s.status
    mem := e.memAfter s.mem
    consoleIn := e.consoleInAfter s.consoleIn
    consoleOut := e.consoleOutAfter s.consoleOut
    trace := s.traceAfter e }

/-- The default next pc, pc + 4 modulo 2^32 (40_dispatch_and_step.md R124, 10_state.md R28). -/
def State.nextPc (s : State) : Word := s.pc + 4

/-- The effect of an instruction that writes one register and goes on to the next instruction. -/
def State.writesReg (s : State) (rd : RegIdx) (v : Word) : Effect :=
  { regWrite := some (rd, v), nextPc := s.nextPc }

/-- Retire an instruction that writes one register and goes on to the next instruction. -/
def State.retireReg (s : State) (rd : RegIdx) (v : Word) : Result := .next (s.commit (s.writesReg rd v))

/-- A transfer of control (10_state.md R27, 20_memory.md R59): a target that is not a multiple of 4 is an error at
the jump or branch, before any state changes; else the effect is committed with the target as the next pc. -/
def State.transfer (s : State) (kind : TransferKind) (target : Word) (regWrite : Option (RegIdx × Word)) : Result :=
  if isAligned target 4 then .next (s.commit { regWrite := regWrite, nextPc := target })
  else .next (s.raise (.instructionAddressMisaligned kind target))

/-- The load of 44_loads.md R180: read, extend, write rd. -/
def State.load (s : State) (a : Word) (width : Width) (ext : Word → Word) (rd : RegIdx) : Result :=
  match s.memRead a width with
  | .error e => .next (s.raise e)
  | .ok v => s.retireReg rd (ext v)

/-- The store of 45_stores.md R195: checked whole before any byte is written (20_memory.md R56). -/
def State.store (s : State) (a : Word) (width : Width) (v : Word) : Result :=
  match s.accessError .store a width.bytes with
  | some e => .next (s.raise e)
  | none => .next (s.commit { memWrite := some ⟨a, width, v⟩, nextPc := s.nextPc })

/-! ### The console and the host -/

/-- Call 1, ConsoleRead (49_system.md R272): while no byte has been supplied the core has no step; else the oldest
byte is taken and x10 gets it sign-extended. -/
def State.consoleReadCall (s : State) : Result :=
  match s.consoleIn with
  | [] => .fault .consoleBlocked
  | b :: _ =>
    .next (s.commit { regWrite := some (a0, b.signExtend 32), consoleRead := true, nextPc := s.nextPc })

/-- Call 2, ConsoleWrite of x10[7:0] (49_system.md R273). -/
def State.consoleWriteCall (s : State) : Result :=
  .next (s.commit { consoleWrite := some (byteOfWord (s.readReg a0) 0), nextPc := s.nextPc })

/-- Calls 3 and 93, exit: the ECALL retires and the status becomes Halted(normal) (49_system.md R274). -/
def State.exitCall (s : State) : Result :=
  .next (s.commit { halt := true, nextPc := s.nextPc })

/-- The console host supplies one more byte, between two steps (49_system.md R277). -/
def State.supply (s : State) (b : Byte) : State := { s with consoleIn := s.consoleIn ++ [b] }

/-- The numeric status codes (60_exceptions.md R301). -/
def Status.code : Status → Nat
  | .running => 0
  | .haltedNormal => 1
  | .haltedError (.decodeError _) => 2
  | .haltedError (.memoryAccessError _ _) => 3
  | .haltedError (.unsupportedSyscall _) => 4
  | .haltedError (.instructionAddressMisaligned _ _) => 5
  | .haltedError (.misalignedDataAccess _ _) => 6

/-- The outcome of a run: the counter and the status, once the status is halted (10_state.md R37). -/
def State.outcome (s : State) : Option (Counter × Status) :=
  if s.status = .running then none else some (s.instret, s.status)

/-- The loader's image as memory: each named byte in turn (70_reset_and_hazards.md R344). -/
def Memory.ofImage (image : List (Word × Byte)) : Memory :=
  image.foldl (fun m c => Memory.write m c.1.toNat c.2) []

/-- The start of a session (70_reset_and_hazards.md R340, R344) with the parameters the host chooses: entry address,
mapped region and policy, the bytes the image names, the characters already supplied, and whether a trace sink is
attached. -/
def State.start (entryPc : Word) (params : Params) (image : List (Word × Byte)) (input : List Byte)
    (sink : Bool) : State where
  regs := Vector.replicate 32 0
  pc := entryPc
  instret := 0
  status := .running
  mem := Memory.ofImage image
  consoleIn := input
  consoleOut := []
  trace := if sink then some [] else none
  params := params

/-! ### Placing an instruction for the next fetch -/

/-- Make a four-byte word readable at an address: map its bytes unless they are mapped. -/
def withWordMapped (p : Params) (a : Word) : Params :=
  { p with mapped := { base := a.toNat, size := 4 } :: p.mapped }

/-- The state with a word stored at the pc and everything the next fetch needs of it: status Running, pc a multiple of
4, its four bytes mapped. What already holds is left as it is. -/
def State.placeWord (s : State) (w : Word) : State :=
  let pc := if isAligned s.pc 4 then s.pc else s.pc - BitVec.ofNat 32 (s.pc.toNat % 4)
  { s with
    pc := pc
    status := .running
    mem := Memory.writeBytes s.mem pc (bytesOf w .word)
    params := if s.allMapped pc 4 then s.params else withWordMapped s.params pc }

end Sys2Proof.Machine
end

