-- ==== Sys2Proof/Machine/Operands.lean ====
section
/-! DEFINITION. The operand forms: the one addressing mode, the shift amounts and the targets of jumps and branches. -/

namespace Sys2Proof.Machine

/-- Base register plus signed displacement, modulo 2^32: the one addressing mode of loads and stores (44_loads.md R180,
45_stores.md R195, 20_memory.md R71). -/
def effectiveAddress (s : State) (rs1 : RegIdx) (imm : Word) : Word := s.readReg rs1 + imm

/-- The target of JAL and of a taken branch: an offset from the instruction's own address (42_jumps.md R150,
43_branches.md R160). -/
def relativeTarget (s : State) (imm : Word) : Word := s.pc + imm

/-- The target of JALR: base plus displacement with bit 0 cleared (42_jumps.md R151). -/
def indirectTarget (s : State) (rs1 : RegIdx) (imm : Word) : Word := (s.readReg rs1 + imm) &&& 0xFFFFFFFE#32

/-- The shift amount of SLL, SRL and SRA: the low five bits of rs2 (47_alu_register.md R230). -/
def regShamt (s : State) (rs2 : RegIdx) : Nat := (s.readReg rs2).toNat % 32

end Sys2Proof.Machine
end

