-- ==== Sys2Proof/Machine/Flags.lean ====
section
/-! DEFINITION. The hardware has no flags (10_state.md R30). What takes their place is here: the comparisons that decide
a branch or are written to a register. -/

namespace Sys2Proof.Machine

/-- `<s`: comparison of the two's-complement values (00_scope.md R12). -/
def lessSigned (a b : Word) : Bool := decide (a.toInt < b.toInt)

/-- `<u`: comparison of the unsigned values (00_scope.md R12). -/
def lessUnsigned (a b : Word) : Bool := decide (a.toNat < b.toNat)

/-- A comparison's result in a register: 1 for true, 0 for false (46_alu_immediate.md R210, 47_alu_register.md R230). -/
def boolWord (c : Bool) : Word := if c then 1 else 0

/-- A branch with its condition decided (43_branches.md R160): taken, to the offset from its own address; not taken, to
pc + 4, whatever the offset. -/
def branchOn (cond : Bool) (imm : Word) (s : State) : Result :=
  if cond then s.transfer .branch (relativeTarget s imm) none
  else .next (s.commit { nextPc := s.nextPc })

end Sys2Proof.Machine
end

