-- ==== Sys2Proof/Machine/AluImmediate.lean ====
section
/-! DEFINITION. The immediate ALU instructions (46_alu_immediate.md). Arithmetic is modulo 2^32 (R210). -/

namespace Sys2Proof.Machine

/-- ADDI (R211). -/
def execAddi (rd rs1 : RegIdx) (imm : Word) (s : State) : Result := s.retireReg rd (s.readReg rs1 + imm)

/-- SLTI (R212). -/
def execSlti (rd rs1 : RegIdx) (imm : Word) (s : State) : Result :=
  s.retireReg rd (boolWord (lessSigned (s.readReg rs1) imm))

/-- SLTIU (R213): the sign-extended immediate, compared unsigned. -/
def execSltiu (rd rs1 : RegIdx) (imm : Word) (s : State) : Result :=
  s.retireReg rd (boolWord (lessUnsigned (s.readReg rs1) imm))

/-- XORI (R214). -/
def execXori (rd rs1 : RegIdx) (imm : Word) (s : State) : Result := s.retireReg rd (s.readReg rs1 ^^^ imm)

/-- ORI (R215). -/
def execOri (rd rs1 : RegIdx) (imm : Word) (s : State) : Result := s.retireReg rd (s.readReg rs1 ||| imm)

/-- ANDI (R216). -/
def execAndi (rd rs1 : RegIdx) (imm : Word) (s : State) : Result := s.retireReg rd (s.readReg rs1 &&& imm)

/-- SLLI (R217). -/
def execSlli (rd rs1 : RegIdx) (shamt : BitVec 5) (s : State) : Result :=
  s.retireReg rd (s.readReg rs1 <<< shamt.toNat)

/-- SRLI (R218): zero fill. -/
def execSrli (rd rs1 : RegIdx) (shamt : BitVec 5) (s : State) : Result :=
  s.retireReg rd (s.readReg rs1 >>> shamt.toNat)

/-- SRAI (R219): sign-preserving. -/
def execSrai (rd rs1 : RegIdx) (shamt : BitVec 5) (s : State) : Result :=
  s.retireReg rd ((s.readReg rs1).sshiftRight shamt.toNat)

end Sys2Proof.Machine
end

