-- ==== Sys2Proof/Machine/AluRegister.lean ====
section
/-! DEFINITION. The register ALU instructions (47_alu_register.md). Arithmetic is modulo 2^32 (R230). -/

namespace Sys2Proof.Machine

/-- ADD (R231). -/
def execAdd (rd rs1 rs2 : RegIdx) (s : State) : Result := s.retireReg rd (s.readReg rs1 + s.readReg rs2)

/-- SUB (R232). -/
def execSub (rd rs1 rs2 : RegIdx) (s : State) : Result := s.retireReg rd (s.readReg rs1 - s.readReg rs2)

/-- SLL (R233). -/
def execSll (rd rs1 rs2 : RegIdx) (s : State) : Result := s.retireReg rd (s.readReg rs1 <<< regShamt s rs2)

/-- SLT (R234). -/
def execSlt (rd rs1 rs2 : RegIdx) (s : State) : Result :=
  s.retireReg rd (boolWord (lessSigned (s.readReg rs1) (s.readReg rs2)))

/-- SLTU (R235). -/
def execSltu (rd rs1 rs2 : RegIdx) (s : State) : Result :=
  s.retireReg rd (boolWord (lessUnsigned (s.readReg rs1) (s.readReg rs2)))

/-- XOR (R236). -/
def execXor (rd rs1 rs2 : RegIdx) (s : State) : Result := s.retireReg rd (s.readReg rs1 ^^^ s.readReg rs2)

/-- SRL (R237): zero fill. -/
def execSrl (rd rs1 rs2 : RegIdx) (s : State) : Result := s.retireReg rd (s.readReg rs1 >>> regShamt s rs2)

/-- SRA (R238): sign-preserving. -/
def execSra (rd rs1 rs2 : RegIdx) (s : State) : Result :=
  s.retireReg rd ((s.readReg rs1).sshiftRight (regShamt s rs2))

/-- OR (R239). -/
def execOr (rd rs1 rs2 : RegIdx) (s : State) : Result := s.retireReg rd (s.readReg rs1 ||| s.readReg rs2)

/-- AND (R240). -/
def execAnd (rd rs1 rs2 : RegIdx) (s : State) : Result := s.retireReg rd (s.readReg rs1 &&& s.readReg rs2)

end Sys2Proof.Machine
end

