-- ==== Sys2Proof/Machine/Branches.lean ====
section
/-! DEFINITION. The conditional branches (43_branches.md). -/

namespace Sys2Proof.Machine

/-- BEQ (R161). -/
def execBeq (rs1 rs2 : RegIdx) (imm : Word) (s : State) : Result :=
  branchOn (s.readReg rs1 == s.readReg rs2) imm s

/-- BNE (R162). -/
def execBne (rs1 rs2 : RegIdx) (imm : Word) (s : State) : Result :=
  branchOn (s.readReg rs1 != s.readReg rs2) imm s

/-- BLT (R163). -/
def execBlt (rs1 rs2 : RegIdx) (imm : Word) (s : State) : Result :=
  branchOn (lessSigned (s.readReg rs1) (s.readReg rs2)) imm s

/-- BGE (R164). -/
def execBge (rs1 rs2 : RegIdx) (imm : Word) (s : State) : Result :=
  branchOn (!lessSigned (s.readReg rs1) (s.readReg rs2)) imm s

/-- BLTU (R165). -/
def execBltu (rs1 rs2 : RegIdx) (imm : Word) (s : State) : Result :=
  branchOn (lessUnsigned (s.readReg rs1) (s.readReg rs2)) imm s

/-- BGEU (R166). -/
def execBgeu (rs1 rs2 : RegIdx) (imm : Word) (s : State) : Result :=
  branchOn (!lessUnsigned (s.readReg rs1) (s.readReg rs2)) imm s

end Sys2Proof.Machine
end

