-- ==== Sys2Proof/Machine/Jumps.lean ====
section
/-! DEFINITION. JAL and JALR (42_jumps.md). -/

namespace Sys2Proof.Machine

/-- JAL (R150). -/
def execJal (rd : RegIdx) (imm : Word) (s : State) : Result :=
  s.transfer .jump (relativeTarget s imm) (some (rd, s.nextPc))

/-- JALR (R151): the target is computed from rs1 before rd is written. -/
def execJalr (rd rs1 : RegIdx) (imm : Word) (s : State) : Result :=
  s.transfer .jump (indirectTarget s rs1 imm) (some (rd, s.nextPc))

end Sys2Proof.Machine
end

