-- ==== Sys2Proof/Machine/Loads.lean ====
section
/-! DEFINITION. The loads (44_loads.md). A load into x0 still makes its access (20_memory.md R73). -/

namespace Sys2Proof.Machine

/-- LB (R181). -/
def execLb (rd rs1 : RegIdx) (imm : Word) (s : State) : Result :=
  s.load (effectiveAddress s rs1 imm) .byte (sext 8) rd

/-- LH (R182). -/
def execLh (rd rs1 : RegIdx) (imm : Word) (s : State) : Result :=
  s.load (effectiveAddress s rs1 imm) .half (sext 16) rd

/-- LW (R183): the value is not extended. -/
def execLw (rd rs1 : RegIdx) (imm : Word) (s : State) : Result :=
  s.load (effectiveAddress s rs1 imm) .word id rd

/-- LBU (R184). -/
def execLbu (rd rs1 : RegIdx) (imm : Word) (s : State) : Result :=
  s.load (effectiveAddress s rs1 imm) .byte (zext 8) rd

/-- LHU (R185). -/
def execLhu (rd rs1 : RegIdx) (imm : Word) (s : State) : Result :=
  s.load (effectiveAddress s rs1 imm) .half (zext 16) rd

end Sys2Proof.Machine
end

