-- ==== Sys2Proof/Machine/MulDiv.lean ====
section
/-! DEFINITION. The multiply and divide instructions (48_muldiv.md). Operands are taken to exact integers, and the
result is narrowed at the end (R250). -/

namespace Sys2Proof.Machine

/-- Bits 63:32 of the two's-complement form of an exact product (48_muldiv.md R250, R252). -/
def highWord (product : Int) : Word := BitVec.ofInt 32 (product >>> (32 : Nat))

/-- The quotient of DIV (48_muldiv.md R255). -/
def divSigned (a b : Word) : Word :=
  if b = 0 then 0xFFFFFFFF
  else if a = 0x80000000 ∧ b = 0xFFFFFFFF then 0x80000000
  else BitVec.ofInt 32 (a.toInt.tdiv b.toInt)

/-- The quotient of DIVU (48_muldiv.md R256). -/
def divUnsigned (a b : Word) : Word := if b = 0 then 0xFFFFFFFF else BitVec.ofNat 32 (a.toNat / b.toNat)

/-- The remainder of REM (48_muldiv.md R257). -/
def remSigned (a b : Word) : Word :=
  if b = 0 then a
  else if a = 0x80000000 ∧ b = 0xFFFFFFFF then 0
  else BitVec.ofInt 32 (a.toInt - b.toInt * a.toInt.tdiv b.toInt)

/-- The remainder of REMU (48_muldiv.md R258). -/
def remUnsigned (a b : Word) : Word := if b = 0 then a else BitVec.ofNat 32 (a.toNat % b.toNat)

/-- MUL (R251). -/
def execMul (rd rs1 rs2 : RegIdx) (s : State) : Result :=
  s.retireReg rd (BitVec.ofNat 32 ((s.readReg rs1).toNat * (s.readReg rs2).toNat))

/-- MULH (R252): both operands signed. -/
def execMulh (rd rs1 rs2 : RegIdx) (s : State) : Result :=
  s.retireReg rd (highWord ((s.readReg rs1).toInt * (s.readReg rs2).toInt))

/-- MULHSU (R253): rs1 signed, rs2 unsigned. -/
def execMulhsu (rd rs1 rs2 : RegIdx) (s : State) : Result :=
  s.retireReg rd (highWord ((s.readReg rs1).toInt * ((s.readReg rs2).toNat : Int)))

/-- MULHU (R254): both operands unsigned. -/
def execMulhu (rd rs1 rs2 : RegIdx) (s : State) : Result :=
  s.retireReg rd (highWord (((s.readReg rs1).toNat : Int) * ((s.readReg rs2).toNat : Int)))

/-- DIV (R255). -/
def execDiv (rd rs1 rs2 : RegIdx) (s : State) : Result :=
  s.retireReg rd (divSigned (s.readReg rs1) (s.readReg rs2))

/-- DIVU (R256). -/
def execDivu (rd rs1 rs2 : RegIdx) (s : State) : Result :=
  s.retireReg rd (divUnsigned (s.readReg rs1) (s.readReg rs2))

/-- REM (R257). -/
def execRem (rd rs1 rs2 : RegIdx) (s : State) : Result :=
  s.retireReg rd (remSigned (s.readReg rs1) (s.readReg rs2))

/-- REMU (R258). -/
def execRemu (rd rs1 rs2 : RegIdx) (s : State) : Result :=
  s.retireReg rd (remUnsigned (s.readReg rs1) (s.readReg rs2))

end Sys2Proof.Machine
end

