-- ==== Sys2Proof/Machine/Stores.lean ====
section
/-! DEFINITION. The stores (45_stores.md). -/

namespace Sys2Proof.Machine

/-- SB (R196). -/
def execSb (rs1 rs2 : RegIdx) (imm : Word) (s : State) : Result :=
  s.store (effectiveAddress s rs1 imm) .byte (s.readReg rs2)

/-- SH (R197). -/
def execSh (rs1 rs2 : RegIdx) (imm : Word) (s : State) : Result :=
  s.store (effectiveAddress s rs1 imm) .half (s.readReg rs2)

/-- SW (R198). -/
def execSw (rs1 rs2 : RegIdx) (imm : Word) (s : State) : Result :=
  s.store (effectiveAddress s rs1 imm) .word (s.readReg rs2)

end Sys2Proof.Machine
end

