-- ==== Sys2Proof/Machine/System.lean ====
section
/-! DEFINITION. ECALL (49_system.md). -/

namespace Sys2Proof.Machine

/-- ECALL (R271): the call number is the whole of x17. -/
def execEcall (s : State) : Result :=
  if s.readReg a7 = 1 then s.consoleReadCall
  else if s.readReg a7 = 2 then s.consoleWriteCall
  else if s.readReg a7 = 3 ∨ s.readReg a7 = 93 then s.exitCall
  else .next (s.raise (.unsupportedSyscall (s.readReg a7)))

end Sys2Proof.Machine
end

