-- ==== Sys2Proof/Machine/UpperImmediate.lean ====
section
/-! DEFINITION. LUI and AUIPC (41_upper_immediate.md). -/

namespace Sys2Proof.Machine

/-- LUI (R140). -/
def execLui (rd : RegIdx) (imm : Word) (s : State) : Result := s.retireReg rd imm

/-- AUIPC (R141): pc is the address of the AUIPC itself. -/
def execAuipc (rd : RegIdx) (imm : Word) (s : State) : Result := s.retireReg rd (imm + s.pc)

end Sys2Proof.Machine
end

