-- ==== Sys2Proof/Machine/Step.lean ====
section
/-! DEFINITION. The one step of the core (40_dispatch_and_step.md R123): fetch, decode, execute, commit. -/

namespace Sys2Proof.Machine

/-- One step (40_dispatch_and_step.md R122, R123). It is taken only when the status is Running (R126). An error of the
fetch or decode stage is raised as any other. -/
def step (s : State) : Host.Outcome State Fault Refusal :=
  match s.status with
  | .running =>
    match s.fetch with
    | .error e => .next (s.raise e)
    | .ok w =>
      match decodeStage w with
      | .error e => .next (s.raise e)
      | .ok i => exec i s
  | .haltedNormal => .fault .sessionHalted
  | .haltedError _ => .fault .sessionHalted

/-- The state with the instruction whose bits are `w` (its low `nbits` bits, every bit above them zero) stored where
the next step fetches (log entry 9). -/
def State.withFetchWord (s : State) (nbits w : Nat) : State := s.placeWord (BitVec.ofNat 32 (w % 2 ^ nbits))

end Sys2Proof.Machine
end

