-- ==== Sys2Proof/Safety.lean ====
section
/-! DEFINITION. The terms the statements use: the formats as the spec draws them, what an instruction does to a state
and leaves unchanged, and the invariant of the machine. -/

namespace Sys2Proof

/-! ### The formats, drawn left to right from bit 31 (30_encoding.md R83) -/

/-- The R format. -/
def rForm (funct7 : BitVec 7) (rs2 rs1 : RegIdx) (funct3 : BitVec 3) (rd : RegIdx) (opcode : BitVec 7) : Word :=
  funct7 ++ bitsOfReg rs2 ++ bitsOfReg rs1 ++ funct3 ++ bitsOfReg rd ++ opcode

/-- The I format. -/
def iForm (imm : BitVec 12) (rs1 : RegIdx) (funct3 : BitVec 3) (rd : RegIdx) (opcode : BitVec 7) : Word :=
  imm ++ bitsOfReg rs1 ++ funct3 ++ bitsOfReg rd ++ opcode

/-- The I format of the immediate shifts. -/
def shiftForm (funct7 : BitVec 7) (shamt : BitVec 5) (rs1 : RegIdx) (funct3 : BitVec 3) (rd : RegIdx)
    (opcode : BitVec 7) : Word :=
  funct7 ++ shamt ++ bitsOfReg rs1 ++ funct3 ++ bitsOfReg rd ++ opcode

/-- The S format: imm[11:5], rs2, rs1, funct3, imm[4:0], opcode. -/
def sForm (imm : BitVec 12) (rs2 rs1 : RegIdx) (funct3 : BitVec 3) (opcode : BitVec 7) : Word :=
  imm.extractLsb' 5 7 ++ bitsOfReg rs2 ++ bitsOfReg rs1 ++ funct3 ++ imm.extractLsb' 0 5 ++ opcode

/-- The B format: imm[12], imm[10:5], rs2, rs1, funct3, imm[4:1], imm[11], opcode. -/
def bForm (imm : BitVec 13) (rs2 rs1 : RegIdx) (funct3 : BitVec 3) (opcode : BitVec 7) : Word :=
  imm.extractLsb' 12 1 ++ imm.extractLsb' 5 6 ++ bitsOfReg rs2 ++ bitsOfReg rs1 ++ funct3 ++
    imm.extractLsb' 1 4 ++ imm.extractLsb' 11 1 ++ opcode

/-- The U format: imm[31:12], rd, opcode. -/
def uForm (imm20 : BitVec 20) (rd : RegIdx) (opcode : BitVec 7) : Word := imm20 ++ bitsOfReg rd ++ opcode

/-- The J format: imm[20], imm[10:1], imm[11], imm[19:12], rd, opcode. -/
def jForm (imm : BitVec 21) (rd : RegIdx) (opcode : BitVec 7) : Word :=
  imm.extractLsb' 20 1 ++ imm.extractLsb' 1 10 ++ imm.extractLsb' 11 1 ++ imm.extractLsb' 12 8 ++
    bitsOfReg rd ++ opcode

/-- The word decodes to the instruction. -/
def DecodesTo (w : Word) (i : Instr) : Prop := decode w = .ok i

/-- The word is a decode error. -/
def IsDecodeError (w : Word) : Prop := ∃ r, decode w = .error r

end Sys2Proof

namespace Sys2Proof.Machine

/-! ### What changes and what does not -/

/-- Every register but `rd` reads as before. -/
def SameRegsExcept (rd : RegIdx) (s t : State) : Prop := ∀ r, r ≠ rd → t.readReg r = s.readReg r

/-- Every register reads as before. -/
def SameRegs (s t : State) : Prop := ∀ r, t.readReg r = s.readReg r

/-- Every byte of memory reads as before. -/
def SameMemory (s t : State) : Prop := ∀ a, t.byteAt a = s.byteAt a

/-- Every byte of memory outside the `n` bytes at `a` (addresses modulo 2^32) reads as before. -/
def SameMemoryExcept (a : Word) (n : Nat) (s t : State) : Prop :=
  ∀ b, (∀ k < n, b ≠ a + BitVec.ofNat 32 k) → t.byteAt b = s.byteAt b

/-- Neither console stream changed. -/
def SameConsole (s t : State) : Prop := t.consoleIn = s.consoleIn ∧ t.consoleOut = s.consoleOut

/-- One instruction retired: the counter went up by one, modulo 2^64, and an attached trace sink got one record, after
those it had, with whatever content (no source gives any: 10_state.md R38, decision D23). -/
def Retired (s t : State) : Prop := t.instret = s.instret + 1 ∧ ∃ record, t.trace = s.trace.map (· ++ [record])

/-- The instruction completes: register `rd` gets `v` (x0 still reads zero), the pc becomes `next`, and nothing else
changes but the counter and the trace. -/
def WritesRegister (i : Instr) (s : State) (rd : RegIdx) (v next : Word) : Prop :=
  ∃ t, exec i s = .next t ∧ t.readReg rd = (if rd = 0 then 0 else v) ∧ SameRegsExcept rd s t ∧ t.pc = next ∧
    Retired s t ∧ SameMemory s t ∧ SameConsole s t ∧ t.status = s.status ∧ t.params = s.params

/-- The instruction completes: the pc becomes `next`, and nothing else changes but the counter and the trace. -/
def GoesTo (i : Instr) (s : State) (next : Word) : Prop :=
  ∃ t, exec i s = .next t ∧ SameRegs s t ∧ t.pc = next ∧ Retired s t ∧ SameMemory s t ∧ SameConsole s t ∧
    t.status = s.status ∧ t.params = s.params

/-- The instruction completes: the `n` bytes at `a` become the low `n` bytes of `v`, least significant first, the pc
becomes pc + 4, and nothing else changes but the counter and the trace. -/
def StoresBytes (i : Instr) (s : State) (a : Word) (n : Nat) (v : Word) : Prop :=
  ∃ t, exec i s = .next t ∧ (∀ k < n, t.byteAt (a + BitVec.ofNat 32 k) = v.extractLsb' (8 * k) 8) ∧
    SameMemoryExcept a n s t ∧ SameRegs s t ∧ t.pc = s.pc + 4 ∧ Retired s t ∧ SameConsole s t ∧
    t.status = s.status ∧ t.params = s.params

/-- The instruction halts the session with an error and changes nothing else (60_exceptions.md R310). -/
def HaltsWith (i : Instr) (s : State) (e : ErrorKind) : Prop :=
  exec i s = .next { s with status := .haltedError e }

/-- `v` is `a` shifted left by `n` with zero fill (00_scope.md R12). -/
def IsLeftShift (v a : Word) (n : Nat) : Prop :=
  ∀ k < 32, v.getLsbD k = (decide (n ≤ k) && a.getLsbD (k - n))

/-- `v` is `a` shifted right by `n` with zero fill (00_scope.md R12). -/
def IsLogicalRightShift (v a : Word) (n : Nat) : Prop :=
  ∀ k < 32, v.getLsbD k = (decide (k + n < 32) && a.getLsbD (k + n))

/-- `v` is `a` shifted right by `n`, filling with copies of bit 31 (00_scope.md R12). -/
def IsArithmeticRightShift (v a : Word) (n : Nat) : Prop :=
  ∀ k < 32, v.getLsbD k = if k + n < 32 then a.getLsbD (k + n) else a.getLsbD 31

/-- What a conditional branch does when its condition is `cond` (43_branches.md R160): taken to an aligned target, it goes
there; taken to another, it halts with the error at the branch (the spec's decision D4); not taken, it goes to pc + 4
whatever its immediate. It writes no register and no memory. -/
def BranchesWhen (i : Instr) (s : State) (imm : Word) (cond : Prop) : Prop :=
  (cond → (s.pc + imm).toNat % 4 = 0 → GoesTo i s (s.pc + imm)) ∧
  (cond → (s.pc + imm).toNat % 4 ≠ 0 →
    HaltsWith i s (.instructionAddressMisaligned .branch (s.pc + imm))) ∧
  (¬ cond → GoesTo i s (s.pc + 4))

/-- What ECALL leaves unchanged when it retires: memory, parameters, and of the registers all but x10 (49_system.md R271). -/
def EcallFrame (s t : State) : Prop :=
  SameRegsExcept a0 s t ∧ t.pc = s.pc + 4 ∧ Retired s t ∧ SameMemory s t ∧ t.params = s.params

/-! ### Accesses -/

/-- The access of `n` bytes at `a` is misaligned and the policy makes that an error (20_memory.md R58). -/
def MisalignedUnderFault (s : State) (a : Word) (n : Nat) : Prop :=
  s.params.misaligned = .fault ∧ a.toNat % n ≠ 0

/-- One byte address lies in a mapped region (20_memory.md R52). -/
def MappedByte (s : State) (a : Word) : Prop :=
  ∃ r ∈ s.params.mapped, r.base ≤ a.toNat ∧ a.toNat < r.base + r.size

/-- Every byte of the access of `n` bytes at `a` is mapped, addresses modulo 2^32 (20_memory.md R52, R71). -/
def MappedAccess (s : State) (a : Word) (n : Nat) : Prop := ∀ k < n, MappedByte s (a + BitVec.ofNat 32 k)

/-- The four bytes at an address, the lowest in bits 7:0 (20_memory.md R53). -/
def WordAt (s : State) (a w : Word) : Prop := ∀ k < 4, w.extractLsb' (8 * k) 8 = s.byteAt (a + BitVec.ofNat 32 k)

/-! ### The invariant -/

/-- What holds of every state of a session whose entry address is a multiple of 4: the stored x0 is zero (10_state.md
R20, R40), the pc is a multiple of 4 (R27), the memory is in canonical form, and an attached trace sink has received
one record for each retired instruction (R38, counted modulo 2^64 as the counter is). -/
def State.Inv (s : State) : Prop :=
  s.regs[0] = 0 ∧ s.pc.toNat % 4 = 0 ∧ s.mem.wf ∧
    ∀ records, s.trace = some records → s.instret = BitVec.ofNat 64 records.length

/-- A state the core can take a step from (40_dispatch_and_step.md R126). -/
def State.Running (s : State) : Prop := s.status = .running

/-- The instructions that can set the next pc (40_dispatch_and_step.md R124). -/
def transfersControl : Instr → Bool
  | .jal .. | .jalr .. | .beq .. | .bne .. | .blt .. | .bge .. | .bltu .. | .bgeu .. => true
  | .lui .. | .auipc .. | .lb .. | .lh .. | .lw .. | .lbu .. | .lhu .. | .sb .. | .sh .. | .sw .. => false
  | .addi .. | .slti .. | .sltiu .. | .xori .. | .ori .. | .andi .. | .slli .. | .srli .. | .srai .. => false
  | .add .. | .sub .. | .sll .. | .slt .. | .sltu .. | .xor .. | .srl .. | .sra .. | .or .. | .and .. => false
  | .mul .. | .mulh .. | .mulhsu .. | .mulhu .. | .div .. | .divu .. | .rem .. | .remu .. | .ecall => false

/-- The bytes a store instruction writes, as the address of the first and their number; none for any other
instruction (45_stores.md R195). -/
def storeFootprint (s : State) : Instr → Option (Word × Nat)
  | .sb rs1 _ imm => some (s.readReg rs1 + imm, 1)
  | .sh rs1 _ imm => some (s.readReg rs1 + imm, 2)
  | .sw rs1 _ imm => some (s.readReg rs1 + imm, 4)
  | .lui .. | .auipc .. | .jal .. | .jalr .. | .beq .. | .bne .. | .blt .. | .bge .. | .bltu .. | .bgeu .. => none
  | .lb .. | .lh .. | .lw .. | .lbu .. | .lhu .. => none
  | .addi .. | .slti .. | .sltiu .. | .xori .. | .ori .. | .andi .. | .slli .. | .srli .. | .srai .. => none
  | .add .. | .sub .. | .sll .. | .slt .. | .sltu .. | .xor .. | .srl .. | .sra .. | .or .. | .and .. => none
  | .mul .. | .mulh .. | .mulhsu .. | .mulhu .. | .div .. | .divu .. | .rem .. | .remu .. | .ecall => none

end Sys2Proof.Machine
end

