-- ==== Sys2Proof/Certificates/Slice0/Obligations.lean ====
section
/-! DEFINITION. The statements for the provers. Each docstring names the rules of `spec/` it formalises; a clause that rests
on a decision or an inference the spec marks as its own, or on a choice of this model, says so. -/

open Sys2Proof Sys2Proof.Machine

/-! ### Encoding -/

/-- Every well-formed instruction decodes back from its word, and from its four bytes followed by any others
(40_dispatch_and_step.md R120, 30_encoding.md R80, R83; the byte order is the spec's decision D2). -/
def Obligations.DecodeOfEncodeGivesTheInstruction : Prop :=
  ∀ i : Instr, i.wellFormed = true →
    DecodesTo (encode i) i ∧ ∀ rest : List Byte, decodeBytes (encodeBytes i ++ rest) = .ok (i, rest)

/-- Each accepted word has one meaning, and no bit of it is dropped: the instruction decoded is well-formed and encodes to
that very word (30_encoding.md R82, R83). -/
def Obligations.EncodeOfDecodeGivesTheWord : Prop :=
  ∀ (w : Word) (i : Instr), DecodesTo w i → i.wellFormed = true ∧ encode i = w

/-- 30_encoding.md R98: a word is a decode error exactly when it matches no row of the table; an accepted word matches the
row that bears its instruction's mnemonic; and the words the rule lists are errors: bits 1:0 other than 11, every
unassigned major opcode it names, the all-zero and the all-ones word. The bytes of the table are in `opcodeTable`. -/
def Obligations.DecodeErrorExactlyWhenNoRowMatches : Prop :=
  (∀ w : Word, IsDecodeError w ↔ ∀ row ∈ opcodeTable, rowMatches w row = false) ∧
  (∀ (w : Word) (i : Instr), DecodesTo w i → ∃ row ∈ opcodeTable, row.1 = i.mnemonic ∧ rowMatches w row = true) ∧
  (∀ w : Word, w.extractLsb' 0 2 ≠ 0b11#2 → IsDecodeError w) ∧
  (∀ w : Word, w.extractLsb' 0 7 ∈ [0x07#7, 0x0B#7, 0x0F#7, 0x1B#7, 0x27#7, 0x2B#7, 0x2F#7, 0x3B#7, 0x43#7, 0x47#7, 0x4B#7,
    0x4F#7, 0x53#7, 0x57#7, 0x5B#7, 0x6B#7, 0x77#7, 0x7B#7, 0x1F#7, 0x3F#7, 0x5F#7, 0x7F#7] → IsDecodeError w) ∧
  IsDecodeError 0x00000000 ∧ IsDecodeError 0xFFFFFFFF

/-- No word matches two rows of the opcode table (30_encoding.md R102, which the spec marks as derived). -/
def Obligations.OpcodeRowsAreDisjoint : Prop :=
  opcodeTable.length = 46 ∧
  ∀ (w : Word), ∀ row ∈ opcodeTable, ∀ row' ∈ opcodeTable,
    rowMatches w row = true → rowMatches w row' = true → row = row'

/-- The I, S and U immediates bit by bit (30_encoding.md R84, R85, R87): bits 31:20 sign-extended; bits 31:25 then 11:7
sign-extended; bits 31:12 in place with twelve zeros below. -/
def Obligations.ImmediatesOfFormatsIAndSAndU : Prop :=
  ∀ (w : Word) (k : Nat), k < 32 →
    (immI w).getLsbD k = (if k < 11 then w.getLsbD (20 + k) else w.getLsbD 31) ∧
    (immS w).getLsbD k =
      (if k < 5 then w.getLsbD (7 + k) else if k < 11 then w.getLsbD (20 + k) else w.getLsbD 31) ∧
    (immU w).getLsbD k = (if k < 12 then false else w.getLsbD k)

/-- The B and J immediates bit by bit and their ranges (30_encoding.md R86, R88; the ranges are marked as derived there):
the sign is bit 31, B takes imm[11] from bit 7, J from bit 20, and bit 0 is always 0. -/
def Obligations.ImmediatesOfFormatsBAndJ : Prop :=
  (∀ (w : Word) (k : Nat), k < 32 →
    (immB w).getLsbD k =
      (if k = 0 then false else if k < 5 then w.getLsbD (7 + k) else if k < 11 then w.getLsbD (20 + k)
       else if k = 11 then w.getLsbD 7 else w.getLsbD 31) ∧
    (immJ w).getLsbD k =
      (if k = 0 then false else if k < 11 then w.getLsbD (20 + k) else if k = 11 then w.getLsbD 20
       else if k < 20 then w.getLsbD k else w.getLsbD 31)) ∧
  ∀ w : Word, (-4096 ≤ (immB w).toInt ∧ (immB w).toInt ≤ 4094) ∧
    (-1048576 ≤ (immJ w).toInt ∧ (immJ w).toInt ≤ 1048574)

/-- A few words of 95_test_vectors.md L2 and of the family files, one or more of each family, decode to the instruction
the spec gives for them, and a few refused ones do not decode. -/
def Obligations.SampleWordsDecode : Prop :=
  DecodesTo 0xABCDE0B7 (.lui 1 0xABCDE000) ∧ DecodesTo 0x008000EF (.jal 1 8) ∧
  DecodesTo 0xFFC280E7 (.jalr 1 5 0xFFFFFFFC) ∧ DecodesTo 0xFE20CCE3 (.blt 1 2 0xFFFFFFF8) ∧
  DecodesTo 0xFFC12283 (.lw 5 2 0xFFFFFFFC) ∧ DecodesTo 0xFE112E23 (.sw 2 1 0xFFFFFFFC) ∧
  DecodesTo 0x40435293 (.srai 5 6 4) ∧ DecodesTo 0x402081B3 (.sub 3 1 2) ∧ DecodesTo 0x0220A1B3 (.mulhsu 3 1 2) ∧
  DecodesTo 0x00000073 .ecall ∧ IsDecodeError 0x00100073 ∧ IsDecodeError 0x42435293 ∧ IsDecodeError 0x0FF0000F

/-! ### The step -/

/-- A step runs the decoded instruction (40_dispatch_and_step.md R122, R123 stages 1 to 3): when the status is Running, the pc
is a multiple of 4, its four bytes are mapped and the word they form (little-endian: the spec's decision D2) decodes to
`i`, the step is `exec` of `i` at that state. Nothing is added around `exec` on this hardware: it commits pc and counter
itself. -/
def Obligations.StepRunsTheDecodedInstruction : Prop :=
  ∀ (s : State) (w : Word) (i : Instr), s.Running → s.pc.toNat % 4 = 0 → MappedAccess s s.pc 4 → WordAt s s.pc w →
    DecodesTo w i → step s = exec i s

/-- The errors before execution and their order (20_memory.md R60, 60_exceptions.md R309; the misaligned fetch and the order
are the spec's decisions D5 and D24): fetch alignment, then fetch mapping, then DecodeError with the word; each changes
the status alone. -/
def Obligations.FetchAndDecodeErrorsInOrder : Prop :=
  ∀ s : State, s.Running →
    (s.pc.toNat % 4 ≠ 0 →
      step s = .next { s with status := .haltedError (.instructionAddressMisaligned .fetch s.pc) }) ∧
    (s.pc.toNat % 4 = 0 → ¬ MappedAccess s s.pc 4 →
      step s = .next { s with status := .haltedError (.memoryAccessError .fetch s.pc) }) ∧
    (∀ w, s.pc.toNat % 4 = 0 → MappedAccess s s.pc 4 → WordAt s s.pc w → IsDecodeError w →
      step s = .next { s with status := .haltedError (.decodeError w) })

/-- No silent skip (40_dispatch_and_step.md R127): a step that ends in an error leaves the pc at the instruction it could
not decode or execute (60_exceptions.md R310, the spec's decision D9), and the loop stops there, for the next step does not
exist (R126; written as the fault `sessionHalted`, the model's form of it: log entry 7); a word that does not decode, its
bytes taken little-endian (decision D2), ends so. -/
def Obligations.FailedInstructionIsNeverSkipped : Prop :=
  (∀ (s t : State) (e : ErrorKind), step s = .next t → t.status = .haltedError e →
    t.pc = s.pc ∧ step t = .fault .sessionHalted) ∧
  (∀ (s : State) (w : Word), s.Running → s.pc.toNat % 4 = 0 → MappedAccess s s.pc 4 → WordAt s s.pc w → IsDecodeError w →
    ∃ t e, step s = .next t ∧ t.status = .haltedError e)

/-- A halted core has no step, whichever halt it is (40_dispatch_and_step.md R126). That "no step" is the fault
`sessionHalted` is the model's own form (log entry 7). -/
def Obligations.HaltedIsFinal : Prop :=
  ∀ s : State, s.status ≠ .running → step s = .fault .sessionHalted

/-- A step either halts with an error and changes nothing else, or retires one instruction: the counter goes up by one, an
attached trace sink gets one record, and the status is Running or Halted(normal) (40_dispatch_and_step.md R123, R125,
60_exceptions.md R310; the precise halt and the counting are the spec's decisions D9 and D10). -/
def Obligations.StepRetiresOrHaltsPrecisely : Prop :=
  ∀ s t : State, step s = .next t →
    (∃ e, t = { s with status := .haltedError e }) ∨
    (Retired s t ∧ (t.status = .running ∨ t.status = .haltedNormal))

/-- Every step keeps the invariant: stored x0 zero, pc a multiple of 4, canonical memory (this model's form, log entry 4),
as many trace records as retired instructions. For every state, reached or not. The aligned pc rests on the spec's decision
D4 (10_state.md R27), the canonical memory on log entry 4. -/
def Obligations.StepKeepsTheInvariant : Prop := ∀ s t : State, s.Inv → step s = .next t → t.Inv

/-- Every session whose entry address is a multiple of 4 starts in the invariant, `State.reset` among them (the reset's own
parameters are choices of this model: log entries 1, 2, 6 and 8). -/
def Obligations.SessionStartsInTheInvariant : Prop :=
  State.reset.Inv ∧
  ∀ (entry : Word) (p : Params) (image : List (Word × Byte)) (input : List Byte) (sink : Bool),
    entry.toNat % 4 = 0 → (State.start entry p image input sink).Inv

/-- The state at the start of a session (70_reset_and_hazards.md R340, R341; calling it reset is the spec's decision D25): all
registers zero, pc the entry address, counter zero, Running, nothing written to the console, each byte the last one the
image names for it. `State.reset` is such a start with the parameters of log entries 1, 2, 5, 6 and 8. -/
def Obligations.SessionStartState : Prop :=
  (∀ (entry : Word) (p : Params) (image : List (Word × Byte)) (input : List Byte) (sink : Bool),
    let s := State.start entry p image input sink
    (∀ r, s.readReg r = 0) ∧ s.pc = entry ∧ s.instret = 0 ∧ s.status = .running ∧ s.consoleIn = input ∧
      s.consoleOut = [] ∧ s.params = p ∧
      ∀ (a : Word) (b : Byte), (State.start entry p (image ++ [(a, b)]) input sink).byteAt a = b ∧
        ∀ a', a' ≠ a → (State.start entry p (image ++ [(a, b)]) input sink).byteAt a' = s.byteAt a') ∧
  State.reset = State.start 0 { mapped := [{ base := 0, size := 2 ^ 32 }], misaligned := .fault } [] [] false

/-- No step changes the mapped region or the misaligned-access policy (20_memory.md R52; that `mapped` is fixed for a session
is the spec's decision D6). -/
def Obligations.StepKeepsSessionParameters : Prop := ∀ s t : State, step s = .next t → t.params = s.params

/-- Only stores change memory, and only the bytes they store to (20_memory.md R54, R66): if a step changes how a byte reads,
the instruction at the pc is a store, and the byte is one of those its operands address. -/
def Obligations.OnlyStoresChangeMemory : Prop :=
  ∀ (s t : State) (b : Word), step s = .next t → t.byteAt b ≠ s.byteAt b →
    ∃ w i a n, WordAt s s.pc w ∧ DecodesTo w i ∧ storeFootprint s i = some (a, n) ∧ ∃ k < n, b = a + BitVec.ofNat 32 k

/-- Only ECALL reaches the console or halts normally (10_state.md R31, 49_system.md R270; the console calls rest on the spec's
decisions D17 and D18): after any other instruction both streams are as before and the status is as before or an error. -/
def Obligations.OnlyEcallUsesConsoleOrHaltsNormally : Prop :=
  ∀ (i : Instr) (s t : State), i ≠ .ecall → exec i s = .next t →
    SameConsole s t ∧ (t.status = s.status ∨ ∃ e, t.status = .haltedError e)

/-- The counter and the trace never affect execution (10_state.md R29 "never affects semantics", R38; the trace's part is the
spec's decision D23): two states that differ in them alone take steps of the same kind to states that differ in them
alone. -/
def Obligations.CounterAndTraceNeverAffectExecution : Prop :=
  ∀ (s : State) (n : Counter) (tr : Option (List TraceRecord)),
    let s' := { s with instret := n, trace := tr }
    (∀ t, step s = .next t → ∃ t', step s' = .next t' ∧ t' = { t with instret := t'.instret, trace := t'.trace }) ∧
    (∀ f, step s = .fault f → step s' = .fault f) ∧ (∀ r, step s ≠ .refused r)

/-- 10_state.md R22, with the reads of R21: a read of register 0 is 0 whatever was written; a write to register 0 does nothing; after a
write to another register it reads the value verbatim and every other register is as before; a register never written
since the start reads zero; and a step writes at most one register. -/
def Obligations.RegisterFileReadsAndWrites : Prop :=
  (∀ s : State, s.readReg 0 = 0) ∧
  (∀ (regs : Vector Word 32) (v : Word), RegFile.write regs 0 v = regs) ∧
  (∀ (s : State) (r : RegIdx) (v : Word), r ≠ 0 →
    { s with regs := RegFile.write s.regs r v }.readReg r = v ∧
    ∀ q, q ≠ r → { s with regs := RegFile.write s.regs r v }.readReg q = s.readReg q) ∧
  (∀ r, State.reset.readReg r = 0) ∧
  (∀ s t : State, step s = .next t → ∃ rd, SameRegsExcept rd s t)

/-- 40_dispatch_and_step.md R124: an instruction that retires, and is not JAL, JALR or a branch, goes on at pc + 4 modulo
2^32; a branch goes on at pc + 4 or at its target. -/
def Obligations.NextPcIsPcPlusFourByDefault : Prop :=
  ∀ (i : Instr) (s t : State), exec i s = .next t → t.instret ≠ s.instret →
    (transfersControl i = false → t.pc = s.pc + 4) ∧
    (∀ rs1 rs2 imm, i = .beq rs1 rs2 imm ∨ i = .bne rs1 rs2 imm ∨ i = .blt rs1 rs2 imm ∨ i = .bge rs1 rs2 imm ∨
      i = .bltu rs1 rs2 imm ∨ i = .bgeu rs1 rs2 imm → t.pc = s.pc + 4 ∨ t.pc = s.pc + imm)

/-- pc wraps modulo 2^32 (10_state.md R28, which the spec marks as derived): at 0xFFFFFFFC a retiring instruction that does
not transfer control goes on at address 0. -/
def Obligations.PcWrapsAtTheTop : Prop :=
  ∀ (i : Instr) (s t : State), exec i s = .next t → t.instret ≠ s.instret → transfersControl i = false →
    s.pc = 0xFFFFFFFC → t.pc = 0

/-- Over any number of steps that stay Running, the counter rises by the number of steps modulo 2^64, and an attached trace
sink has received that many more records (10_state.md R29, R38; the wrap is the spec's decision D21). -/
def Obligations.CounterCountsTheRetiredInstructions : Prop :=
  ∀ (n : Nat) (s t : State), Sys2Proof.core.run n s = .next t → t.status = .running →
    t.instret = s.instret + BitVec.ofNat 64 n ∧
    ∀ records, s.trace = some records → ∃ more, t.trace = some (records ++ more) ∧ more.length = n

/-- A word placed for the next fetch is run by the very next step, from any state (log entry 9: `withFetchWord` stands for the
loader; this is the model's own convention). -/
def Obligations.PlacedWordIsRunNext : Prop :=
  ∀ (s : State) (w : Nat) (i : Instr), decodeTableWord 32 w = some i →
    step (s.withFetchWord 32 w) = exec i (s.withFetchWord 32 w)

/-! ### Memory -/

/-- 20_memory.md R69, 70_reset_and_hazards.md R347: a store is seen by the very next fetch. After a store that retired, a
fetch at an aligned, mapped pc answers a word each of whose bytes is the stored byte where the store covers it and the
byte of before where it does not. -/
def Obligations.NextFetchSeesTheStore : Prop :=
  ∀ (i : Instr) (s t : State) (rs1 rs2 : RegIdx) (imm : Word) (n : Nat),
    (i = .sb rs1 rs2 imm ∧ n = 1 ∨ i = .sh rs1 rs2 imm ∧ n = 2 ∨ i = .sw rs1 rs2 imm ∧ n = 4) →
    exec i s = .next t → t.instret ≠ s.instret → t.pc.toNat % 4 = 0 → MappedAccess t t.pc 4 →
    ∃ w, t.fetch = .ok w ∧ ∀ k < 4,
      (∀ j < n, t.pc + BitVec.ofNat 32 k = s.readReg rs1 + imm + BitVec.ofNat 32 j →
        w.extractLsb' (8 * k) 8 = (s.readReg rs2).extractLsb' (8 * j) 8) ∧
      ((∀ j < n, t.pc + BitVec.ofNat 32 k ≠ s.readReg rs1 + imm + BitVec.ofNat 32 j) →
        w.extractLsb' (8 * k) 8 = s.byteAt (t.pc + BitVec.ofNat 32 k))

/-- Self-modifying code takes effect at the next instruction (20_memory.md R69, program P6 of 95_test_vectors.md): a SW of
an instruction's word over the next instruction makes the next step run it. -/
def Obligations.StoredInstructionRunsNext : Prop :=
  ∀ (s : State) (rs1 rs2 : RegIdx) (imm : Word) (i : Instr), s.Running → s.pc.toNat % 4 = 0 →
    s.readReg rs1 + imm = s.pc + 4 → MappedAccess s (s.pc + 4) 4 → DecodesTo (s.readReg rs2) i →
    ∃ t, exec (.sw rs1 rs2 imm) s = .next t ∧ t.pc = s.pc + 4 ∧ step t = exec i t

/-- Two memories in canonical form that read alike at every address are equal data (log entry 4: the canonical form is this
model's). -/
def Obligations.CanonicalMemoriesThatReadAlikeAreEqual : Prop :=
  ∀ m m' : Memory, Memory.wf m → Memory.wf m' → (∀ k, Memory.read? m k = Memory.read? m' k) → m = m'

/-- A load after a store to the same address returns what was stored (20_memory.md R66; the §8 properties of
95_test_vectors.md E6; mapping and alignment as in R55, R56, whose policy is the spec's decision D3): word, halfword
and byte, sign- or zero-extended. -/
def Obligations.LoadAfterStoreReturnsTheStoredValue : Prop :=
  ∀ (s t : State) (rs1 rs2 rd base : RegIdx) (imm disp : Word),
    t.readReg base + disp = s.readReg rs1 + imm → t.instret ≠ s.instret →
    (exec (.sw rs1 rs2 imm) s = .next t → WritesRegister (.lw rd base disp) t rd (s.readReg rs2) (t.pc + 4)) ∧
    (exec (.sh rs1 rs2 imm) s = .next t →
      WritesRegister (.lhu rd base disp) t rd (((s.readReg rs2).setWidth 16).setWidth 32) (t.pc + 4) ∧
      WritesRegister (.lh rd base disp) t rd (((s.readReg rs2).setWidth 16).signExtend 32) (t.pc + 4)) ∧
    (exec (.sb rs1 rs2 imm) s = .next t →
      WritesRegister (.lbu rd base disp) t rd (((s.readReg rs2).setWidth 8).setWidth 32) (t.pc + 4) ∧
      WritesRegister (.lb rd base disp) t rd (((s.readReg rs2).setWidth 8).signExtend 32) (t.pc + 4))

/-- A jump to an aligned but unmapped target succeeds, and the error comes at the next fetch (95_test_vectors.md L2.4,
20_memory.md R60). -/
def Obligations.JumpToUnmappedTargetFailsAtTheNextFetch : Prop :=
  ∀ (s : State) (rd : RegIdx) (imm : Word), s.Running → (s.pc + imm).toNat % 4 = 0 → ¬ MappedAccess s (s.pc + imm) 4 →
    ∃ t, exec (.jal rd imm) s = .next t ∧ t.status = .running ∧ t.instret = s.instret + 1 ∧
      step t = .next { t with status := .haltedError (.memoryAccessError .fetch (s.pc + imm)) }

/-! ### Upper immediates, jumps, branches -/

/-- LUI and AUIPC (41_upper_immediate.md R140, R141): their words, what they write, and that they change nothing else. -/
def Obligations.LuiAndAuipc : Prop :=
  (∀ (imm20 : BitVec 20) (rd : RegIdx),
    DecodesTo (uForm imm20 rd 0b0110111) (.lui rd (imm20 ++ 0#12)) ∧
    DecodesTo (uForm imm20 rd 0b0010111) (.auipc rd (imm20 ++ 0#12))) ∧
  ∀ (s : State) (rd : RegIdx) (imm : Word),
    WritesRegister (.lui rd imm) s rd imm (s.pc + 4) ∧
    WritesRegister (.auipc rd imm) s rd (imm + s.pc) (s.pc + 4)

/-- JAL (42_jumps.md R150): its word; the link and the target; a target that is not a multiple of 4 halts with the error at
the jump and changes nothing else (the spec's decision D4). -/
def Obligations.JalLinksAndJumps : Prop :=
  (∀ (off : BitVec 20) (rd : RegIdx),
    DecodesTo (jForm (off ++ 0#1) rd 0b1101111) (.jal rd ((off ++ 0#1).signExtend 32))) ∧
  ∀ (s : State) (rd : RegIdx) (imm : Word),
    ((s.pc + imm).toNat % 4 = 0 → WritesRegister (.jal rd imm) s rd (s.pc + 4) (s.pc + imm)) ∧
    ((s.pc + imm).toNat % 4 ≠ 0 →
      HaltsWith (.jal rd imm) s (.instructionAddressMisaligned .jump (s.pc + imm)))

/-- JALR (42_jumps.md R151): its word, other funct3 values being decode errors (30_encoding.md R96); the target is the sum
with bit 0 cleared, from the old value of rs1 even when rd is rs1 (the spec's decision D15); a target that is not a
multiple of 4 halts with the error at the jump (decision D4). -/
def Obligations.JalrLinksAndJumps : Prop :=
  (∀ (imm : BitVec 12) (rs1 rd : RegIdx) (funct3 : BitVec 3),
    DecodesTo (iForm imm rs1 0b000 rd 0b1100111) (.jalr rd rs1 (imm.signExtend 32)) ∧
    (funct3 ≠ 0b000 → IsDecodeError (iForm imm rs1 funct3 rd 0b1100111))) ∧
  ∀ (s : State) (rd rs1 : RegIdx) (imm : Word), let sum := (s.readReg rs1 + imm).toNat
    let target := BitVec.ofNat 32 (sum - sum % 2)
    (target.toNat % 4 = 0 → WritesRegister (.jalr rd rs1 imm) s rd (s.pc + 4) target) ∧
    (target.toNat % 4 ≠ 0 → HaltsWith (.jalr rd rs1 imm) s (.instructionAddressMisaligned .jump target))

/-- BEQ and BNE (43_branches.md R160, R161, R162): their words, the comparison of bits, taken and not taken; the misaligned
target is the spec's decision D4. -/
def Obligations.BeqAndBne : Prop :=
  (∀ (off : BitVec 12) (rs1 rs2 : RegIdx),
    DecodesTo (bForm (off ++ 0#1) rs2 rs1 0b000 0b1100011) (.beq rs1 rs2 ((off ++ 0#1).signExtend 32)) ∧
    DecodesTo (bForm (off ++ 0#1) rs2 rs1 0b001 0b1100011) (.bne rs1 rs2 ((off ++ 0#1).signExtend 32))) ∧
  ∀ (s : State) (rs1 rs2 : RegIdx) (imm : Word),
    BranchesWhen (.beq rs1 rs2 imm) s imm (s.readReg rs1 = s.readReg rs2) ∧
    BranchesWhen (.bne rs1 rs2 imm) s imm (s.readReg rs1 ≠ s.readReg rs2)

/-- BLT and BGE compare the two's-complement values (43_branches.md R160, R163, R164); the misaligned target is the spec's
decision D4. -/
def Obligations.BltAndBge : Prop :=
  (∀ (off : BitVec 12) (rs1 rs2 : RegIdx),
    DecodesTo (bForm (off ++ 0#1) rs2 rs1 0b100 0b1100011) (.blt rs1 rs2 ((off ++ 0#1).signExtend 32)) ∧
    DecodesTo (bForm (off ++ 0#1) rs2 rs1 0b101 0b1100011) (.bge rs1 rs2 ((off ++ 0#1).signExtend 32))) ∧
  ∀ (s : State) (rs1 rs2 : RegIdx) (imm : Word),
    BranchesWhen (.blt rs1 rs2 imm) s imm ((s.readReg rs1).toInt < (s.readReg rs2).toInt) ∧
    BranchesWhen (.bge rs1 rs2 imm) s imm ((s.readReg rs1).toInt ≥ (s.readReg rs2).toInt)

/-- BLTU and BGEU compare the unsigned values (43_branches.md R160, R165, R166); the misaligned target is the spec's
decision D4. -/
def Obligations.BltuAndBgeu : Prop :=
  (∀ (off : BitVec 12) (rs1 rs2 : RegIdx),
    DecodesTo (bForm (off ++ 0#1) rs2 rs1 0b110 0b1100011) (.bltu rs1 rs2 ((off ++ 0#1).signExtend 32)) ∧
    DecodesTo (bForm (off ++ 0#1) rs2 rs1 0b111 0b1100011) (.bgeu rs1 rs2 ((off ++ 0#1).signExtend 32))) ∧
  ∀ (s : State) (rs1 rs2 : RegIdx) (imm : Word),
    BranchesWhen (.bltu rs1 rs2 imm) s imm ((s.readReg rs1).toNat < (s.readReg rs2).toNat) ∧
    BranchesWhen (.bgeu rs1 rs2 imm) s imm ((s.readReg rs1).toNat ≥ (s.readReg rs2).toNat)

/-! ### Loads and stores -/

/-- LB and LBU (44_loads.md R181, R184): their words; when the byte is mapped, rd gets it sign- or zero-extended, under
either policy; when it is not, MemoryAccessError and nothing else changes (60_exceptions.md R310, the spec's decision D9),
for x0 as for any rd (20_memory.md R73, decision D30). -/
def Obligations.ByteLoads : Prop :=
  (∀ (imm : BitVec 12) (rs1 rd : RegIdx),
    DecodesTo (iForm imm rs1 0b000 rd 0b0000011) (.lb rd rs1 (imm.signExtend 32)) ∧
    DecodesTo (iForm imm rs1 0b100 rd 0b0000011) (.lbu rd rs1 (imm.signExtend 32))) ∧
  ∀ (s : State) (rd rs1 : RegIdx) (imm : Word), let a := s.readReg rs1 + imm
    (MappedByte s a →
      WritesRegister (.lb rd rs1 imm) s rd ((s.byteAt a).signExtend 32) (s.pc + 4) ∧
      WritesRegister (.lbu rd rs1 imm) s rd ((s.byteAt a).setWidth 32) (s.pc + 4)) ∧
    (¬ MappedByte s a →
      HaltsWith (.lb rd rs1 imm) s (.memoryAccessError .load a) ∧
      HaltsWith (.lbu rd rs1 imm) s (.memoryAccessError .load a))

/-- LH and LHU (44_loads.md R182, R185): their words; the two bytes little-endian (the spec's decision D2), sign- or
zero-extended; a misaligned address under policy fault is MisalignedDataAccess and is reported before an unmapped one
(decisions D3, D24); byte addresses wrap modulo 2^32; x0 as any rd (decision D30). -/
def Obligations.HalfwordLoads : Prop :=
  (∀ (imm : BitVec 12) (rs1 rd : RegIdx),
    DecodesTo (iForm imm rs1 0b001 rd 0b0000011) (.lh rd rs1 (imm.signExtend 32)) ∧
    DecodesTo (iForm imm rs1 0b101 rd 0b0000011) (.lhu rd rs1 (imm.signExtend 32))) ∧
  ∀ (s : State) (rd rs1 : RegIdx) (imm : Word), let a := s.readReg rs1 + imm
    (MisalignedUnderFault s a 2 →
      HaltsWith (.lh rd rs1 imm) s (.misalignedDataAccess .load a) ∧
      HaltsWith (.lhu rd rs1 imm) s (.misalignedDataAccess .load a)) ∧
    (¬ MisalignedUnderFault s a 2 → ¬ MappedAccess s a 2 →
      HaltsWith (.lh rd rs1 imm) s (.memoryAccessError .load a) ∧
      HaltsWith (.lhu rd rs1 imm) s (.memoryAccessError .load a)) ∧
    (¬ MisalignedUnderFault s a 2 → MappedAccess s a 2 →
      WritesRegister (.lh rd rs1 imm) s rd ((s.byteAt (a + 1) ++ s.byteAt a).signExtend 32) (s.pc + 4) ∧
      WritesRegister (.lhu rd rs1 imm) s rd ((s.byteAt (a + 1) ++ s.byteAt a).setWidth 32) (s.pc + 4))

/-- LW (44_loads.md R183): its word; the four bytes little-endian (the spec's decision D2); the errors and their order as for
LH (decisions D3, D24, D30). -/
def Obligations.WordLoad : Prop :=
  (∀ (imm : BitVec 12) (rs1 rd : RegIdx),
    DecodesTo (iForm imm rs1 0b010 rd 0b0000011) (.lw rd rs1 (imm.signExtend 32))) ∧
  ∀ (s : State) (rd rs1 : RegIdx) (imm : Word), let a := s.readReg rs1 + imm
    (MisalignedUnderFault s a 4 → HaltsWith (.lw rd rs1 imm) s (.misalignedDataAccess .load a)) ∧
    (¬ MisalignedUnderFault s a 4 → ¬ MappedAccess s a 4 →
      HaltsWith (.lw rd rs1 imm) s (.memoryAccessError .load a)) ∧
    (¬ MisalignedUnderFault s a 4 → MappedAccess s a 4 →
      ∃ v, WordAt s a v ∧ WritesRegister (.lw rd rs1 imm) s rd v (s.pc + 4))

/-- SB (45_stores.md R196): its word; when the byte is mapped, it becomes bits 7:0 of rs2, under either policy, and nothing
else changes; when it is not, MemoryAccessError, no byte is written and nothing else changes (20_memory.md R56,
60_exceptions.md R310; the spec's decisions D8 and D9). -/
def Obligations.ByteStore : Prop :=
  (∀ (imm : BitVec 12) (rs1 rs2 : RegIdx),
    DecodesTo (sForm imm rs2 rs1 0b000 0b0100011) (.sb rs1 rs2 (imm.signExtend 32))) ∧
  ∀ (s : State) (rs1 rs2 : RegIdx) (imm : Word), let a := s.readReg rs1 + imm
    (MappedByte s a → StoresBytes (.sb rs1 rs2 imm) s a 1 (s.readReg rs2)) ∧
    (¬ MappedByte s a → HaltsWith (.sb rs1 rs2 imm) s (.memoryAccessError .store a))

/-- SH and SW (45_stores.md R197, R198): their words; the low bytes of rs2, least significant first (the spec's decision D2),
to the bytes at the address, byte addresses modulo 2^32, and nothing else; a misaligned address under policy fault, then
an unmapped byte, is an error and no byte is written (decisions D3, D8, D24). -/
def Obligations.HalfwordAndWordStores : Prop :=
  (∀ (imm : BitVec 12) (rs1 rs2 : RegIdx),
    DecodesTo (sForm imm rs2 rs1 0b001 0b0100011) (.sh rs1 rs2 (imm.signExtend 32)) ∧
    DecodesTo (sForm imm rs2 rs1 0b010 0b0100011) (.sw rs1 rs2 (imm.signExtend 32))) ∧
  ∀ (s : State) (rs1 rs2 : RegIdx) (imm : Word), let a := s.readReg rs1 + imm
    (MisalignedUnderFault s a 2 → HaltsWith (.sh rs1 rs2 imm) s (.misalignedDataAccess .store a)) ∧
    (¬ MisalignedUnderFault s a 2 → ¬ MappedAccess s a 2 →
      HaltsWith (.sh rs1 rs2 imm) s (.memoryAccessError .store a)) ∧
    (¬ MisalignedUnderFault s a 2 → MappedAccess s a 2 →
      StoresBytes (.sh rs1 rs2 imm) s a 2 (s.readReg rs2)) ∧
    (MisalignedUnderFault s a 4 → HaltsWith (.sw rs1 rs2 imm) s (.misalignedDataAccess .store a)) ∧
    (¬ MisalignedUnderFault s a 4 → ¬ MappedAccess s a 4 →
      HaltsWith (.sw rs1 rs2 imm) s (.memoryAccessError .store a)) ∧
    (¬ MisalignedUnderFault s a 4 → MappedAccess s a 4 →
      StoresBytes (.sw rs1 rs2 imm) s a 4 (s.readReg rs2))

/-! ### Immediate and register ALU -/

/-- ADDI, XORI, ORI and ANDI (46_alu_immediate.md R211, R214, R215, R216): their words and results; they complete in every
state and change nothing but rd, pc, counter and trace. -/
def Obligations.ImmediateArithmeticAndLogic : Prop :=
  (∀ (imm : BitVec 12) (rs1 rd : RegIdx),
    DecodesTo (iForm imm rs1 0b000 rd 0b0010011) (.addi rd rs1 (imm.signExtend 32)) ∧
    DecodesTo (iForm imm rs1 0b100 rd 0b0010011) (.xori rd rs1 (imm.signExtend 32)) ∧
    DecodesTo (iForm imm rs1 0b110 rd 0b0010011) (.ori rd rs1 (imm.signExtend 32)) ∧
    DecodesTo (iForm imm rs1 0b111 rd 0b0010011) (.andi rd rs1 (imm.signExtend 32))) ∧
  ∀ (s : State) (rd rs1 : RegIdx) (i : Word),
    WritesRegister (.addi rd rs1 i) s rd (s.readReg rs1 + i) (s.pc + 4) ∧
    WritesRegister (.xori rd rs1 i) s rd (s.readReg rs1 ^^^ i) (s.pc + 4) ∧
    WritesRegister (.ori rd rs1 i) s rd (s.readReg rs1 ||| i) (s.pc + 4) ∧
    WritesRegister (.andi rd rs1 i) s rd (s.readReg rs1 &&& i) (s.pc + 4)

/-- SLTI and SLTIU (46_alu_immediate.md R212, R213): their words; 1 or 0 by the signed, or the unsigned, comparison with the
sign-extended immediate. -/
def Obligations.ImmediateComparisons : Prop :=
  (∀ (imm : BitVec 12) (rs1 rd : RegIdx),
    DecodesTo (iForm imm rs1 0b010 rd 0b0010011) (.slti rd rs1 (imm.signExtend 32)) ∧
    DecodesTo (iForm imm rs1 0b011 rd 0b0010011) (.sltiu rd rs1 (imm.signExtend 32))) ∧
  ∀ (s : State) (rd rs1 : RegIdx) (i : Word),
    WritesRegister (.slti rd rs1 i) s rd (if (s.readReg rs1).toInt < i.toInt then 1 else 0) (s.pc + 4) ∧
    WritesRegister (.sltiu rd rs1 i) s rd (if (s.readReg rs1).toNat < i.toNat then 1 else 0) (s.pc + 4)

/-- SLLI, SRLI and SRAI (46_alu_immediate.md R217, R218, R219): their words, and that any other funct7 is a decode error (the
spec's decision D11); the results bit by bit. -/
def Obligations.ImmediateShifts : Prop :=
  (∀ (funct7 : BitVec 7) (shamt : BitVec 5) (rs1 rd : RegIdx),
    DecodesTo (shiftForm 0b0000000 shamt rs1 0b001 rd 0b0010011) (.slli rd rs1 shamt) ∧
    DecodesTo (shiftForm 0b0000000 shamt rs1 0b101 rd 0b0010011) (.srli rd rs1 shamt) ∧
    DecodesTo (shiftForm 0b0100000 shamt rs1 0b101 rd 0b0010011) (.srai rd rs1 shamt) ∧
    (funct7 ≠ 0b0000000 → IsDecodeError (shiftForm funct7 shamt rs1 0b001 rd 0b0010011)) ∧
    (funct7 ≠ 0b0000000 → funct7 ≠ 0b0100000 → IsDecodeError (shiftForm funct7 shamt rs1 0b101 rd 0b0010011))) ∧
  ∀ (s : State) (rd rs1 : RegIdx) (shamt : BitVec 5),
    (∃ v, IsLeftShift v (s.readReg rs1) shamt.toNat ∧ WritesRegister (.slli rd rs1 shamt) s rd v (s.pc + 4)) ∧
    (∃ v, IsLogicalRightShift v (s.readReg rs1) shamt.toNat ∧ WritesRegister (.srli rd rs1 shamt) s rd v (s.pc + 4)) ∧
    (∃ v, IsArithmeticRightShift v (s.readReg rs1) shamt.toNat ∧ WritesRegister (.srai rd rs1 shamt) s rd v (s.pc + 4))

/-- ADD, SUB, XOR, OR and AND (47_alu_register.md R231, R232, R236, R239, R240): their words and results; they complete in
every state and change nothing but rd, pc, counter and trace. -/
def Obligations.RegisterArithmeticAndLogic : Prop :=
  (∀ (rs2 rs1 rd : RegIdx),
    DecodesTo (rForm 0b0000000 rs2 rs1 0b000 rd 0b0110011) (.add rd rs1 rs2) ∧
    DecodesTo (rForm 0b0100000 rs2 rs1 0b000 rd 0b0110011) (.sub rd rs1 rs2) ∧
    DecodesTo (rForm 0b0000000 rs2 rs1 0b100 rd 0b0110011) (.xor rd rs1 rs2) ∧
    DecodesTo (rForm 0b0000000 rs2 rs1 0b110 rd 0b0110011) (.or rd rs1 rs2) ∧
    DecodesTo (rForm 0b0000000 rs2 rs1 0b111 rd 0b0110011) (.and rd rs1 rs2)) ∧
  ∀ (s : State) (rd rs1 rs2 : RegIdx),
    WritesRegister (.add rd rs1 rs2) s rd (s.readReg rs1 + s.readReg rs2) (s.pc + 4) ∧
    WritesRegister (.sub rd rs1 rs2) s rd (s.readReg rs1 - s.readReg rs2) (s.pc + 4) ∧
    WritesRegister (.xor rd rs1 rs2) s rd (s.readReg rs1 ^^^ s.readReg rs2) (s.pc + 4) ∧
    WritesRegister (.or rd rs1 rs2) s rd (s.readReg rs1 ||| s.readReg rs2) (s.pc + 4) ∧
    WritesRegister (.and rd rs1 rs2) s rd (s.readReg rs1 &&& s.readReg rs2) (s.pc + 4)

/-- SLT and SLTU (47_alu_register.md R234, R235): their words; 1 or 0 by the signed, or the unsigned, comparison. -/
def Obligations.RegisterComparisons : Prop :=
  (∀ (rs2 rs1 rd : RegIdx),
    DecodesTo (rForm 0b0000000 rs2 rs1 0b010 rd 0b0110011) (.slt rd rs1 rs2) ∧
    DecodesTo (rForm 0b0000000 rs2 rs1 0b011 rd 0b0110011) (.sltu rd rs1 rs2)) ∧
  ∀ (s : State) (rd rs1 rs2 : RegIdx),
    WritesRegister (.slt rd rs1 rs2) s rd
      (if (s.readReg rs1).toInt < (s.readReg rs2).toInt then 1 else 0) (s.pc + 4) ∧
    WritesRegister (.sltu rd rs1 rs2) s rd
      (if (s.readReg rs1).toNat < (s.readReg rs2).toNat then 1 else 0) (s.pc + 4)

/-- SLL, SRL and SRA (47_alu_register.md R233, R237, R238): their words; the shift amount is the low five bits of rs2, the
upper 27 ignored (the spec's decision D16); the results bit by bit. -/
def Obligations.RegisterShifts : Prop :=
  (∀ (rs2 rs1 rd : RegIdx),
    DecodesTo (rForm 0b0000000 rs2 rs1 0b001 rd 0b0110011) (.sll rd rs1 rs2) ∧
    DecodesTo (rForm 0b0000000 rs2 rs1 0b101 rd 0b0110011) (.srl rd rs1 rs2) ∧
    DecodesTo (rForm 0b0100000 rs2 rs1 0b101 rd 0b0110011) (.sra rd rs1 rs2)) ∧
  ∀ (s : State) (rd rs1 rs2 : RegIdx), let n := ((s.readReg rs2).extractLsb' 0 5).toNat
    (∃ v, IsLeftShift v (s.readReg rs1) n ∧ WritesRegister (.sll rd rs1 rs2) s rd v (s.pc + 4)) ∧
    (∃ v, IsLogicalRightShift v (s.readReg rs1) n ∧ WritesRegister (.srl rd rs1 rs2) s rd v (s.pc + 4)) ∧
    (∃ v, IsArithmeticRightShift v (s.readReg rs1) n ∧ WritesRegister (.sra rd rs1 rs2) s rd v (s.pc + 4))

/-! ### Multiply and divide -/

/-- MUL, MULH, MULHSU and MULHU (48_muldiv.md R251 to R254): their words; the low word of the product, and bits 63:32 of the
64-bit product of the operands extended as the instruction reads them. -/
def Obligations.Multiplications : Prop :=
  (∀ (rs2 rs1 rd : RegIdx),
    DecodesTo (rForm 0b0000001 rs2 rs1 0b000 rd 0b0110011) (.mul rd rs1 rs2) ∧
    DecodesTo (rForm 0b0000001 rs2 rs1 0b001 rd 0b0110011) (.mulh rd rs1 rs2) ∧
    DecodesTo (rForm 0b0000001 rs2 rs1 0b010 rd 0b0110011) (.mulhsu rd rs1 rs2) ∧
    DecodesTo (rForm 0b0000001 rs2 rs1 0b011 rd 0b0110011) (.mulhu rd rs1 rs2)) ∧
  ∀ (s : State) (rd rs1 rs2 : RegIdx), let a := s.readReg rs1; let b := s.readReg rs2
    WritesRegister (.mul rd rs1 rs2) s rd (a * b) (s.pc + 4) ∧
    WritesRegister (.mulh rd rs1 rs2) s rd ((a.signExtend 64 * b.signExtend 64).extractLsb' 32 32) (s.pc + 4) ∧
    WritesRegister (.mulhsu rd rs1 rs2) s rd ((a.signExtend 64 * b.setWidth 64).extractLsb' 32 32) (s.pc + 4) ∧
    WritesRegister (.mulhu rd rs1 rs2) s rd ((a.setWidth 64 * b.setWidth 64).extractLsb' 32 32) (s.pc + 4)

/-- DIVU and REMU (48_muldiv.md R256, R258): their words; a zero divisor gives all ones and the dividend, any other the floor
of the quotient and the remainder; they complete in every state. -/
def Obligations.UnsignedDivision : Prop :=
  (∀ (rs2 rs1 rd : RegIdx),
    DecodesTo (rForm 0b0000001 rs2 rs1 0b101 rd 0b0110011) (.divu rd rs1 rs2) ∧
    DecodesTo (rForm 0b0000001 rs2 rs1 0b111 rd 0b0110011) (.remu rd rs1 rs2)) ∧
  ∀ (s : State) (rd rs1 rs2 : RegIdx), let a := s.readReg rs1; let b := s.readReg rs2
    (b = 0 → WritesRegister (.divu rd rs1 rs2) s rd 0xFFFFFFFF (s.pc + 4) ∧
      WritesRegister (.remu rd rs1 rs2) s rd a (s.pc + 4)) ∧
    (b ≠ 0 → ∃ q r : Word, WritesRegister (.divu rd rs1 rs2) s rd q (s.pc + 4) ∧
      WritesRegister (.remu rd rs1 rs2) s rd r (s.pc + 4) ∧
      a.toNat = q.toNat * b.toNat + r.toNat ∧ r.toNat < b.toNat)

/-- DIV and REM (48_muldiv.md R255, R257): their words; a zero divisor gives all ones and the dividend, the overflow case
gives INT32_MIN and 0; any other pair gives the quotient rounded toward zero and a remainder with the dividend's sign (the
rounding is the spec's decision D31, R250); they complete in every state. -/
def Obligations.SignedDivision : Prop :=
  (∀ (rs2 rs1 rd : RegIdx),
    DecodesTo (rForm 0b0000001 rs2 rs1 0b100 rd 0b0110011) (.div rd rs1 rs2) ∧
    DecodesTo (rForm 0b0000001 rs2 rs1 0b110 rd 0b0110011) (.rem rd rs1 rs2)) ∧
  ∀ (s : State) (rd rs1 rs2 : RegIdx), let a := s.readReg rs1; let b := s.readReg rs2
    (b = 0 → WritesRegister (.div rd rs1 rs2) s rd 0xFFFFFFFF (s.pc + 4) ∧
      WritesRegister (.rem rd rs1 rs2) s rd a (s.pc + 4)) ∧
    (a = 0x80000000 ∧ b = 0xFFFFFFFF → WritesRegister (.div rd rs1 rs2) s rd 0x80000000 (s.pc + 4) ∧
      WritesRegister (.rem rd rs1 rs2) s rd 0 (s.pc + 4)) ∧
    (b ≠ 0 → ¬ (a = 0x80000000 ∧ b = 0xFFFFFFFF) →
      ∃ q r : Word, WritesRegister (.div rd rs1 rs2) s rd q (s.pc + 4) ∧
        WritesRegister (.rem rd rs1 rs2) s rd r (s.pc + 4) ∧
        a.toInt = q.toInt * b.toInt + r.toInt ∧ r.toInt.natAbs < b.toInt.natAbs ∧
        (r.toInt ≠ 0 → (r.toInt < 0 ↔ a.toInt < 0)))

/-! ### ECALL, status and outcome -/

/-- ECALL's word and that every other SYSTEM word is a decode error (30_encoding.md R97, the spec's decision D12); with
x17 = 1 and a byte supplied, it takes the oldest byte and x10 gets it sign-extended (49_system.md R272, decision D17);
the output and the status are as before. -/
def Obligations.EcallReadsACharacter : Prop :=
  (∀ w : Word, w.extractLsb' 0 7 = 0b1110011#7 →
    (w = 0x00000073 → DecodesTo w .ecall) ∧ (w ≠ 0x00000073 → IsDecodeError w)) ∧
  ∀ (s : State) (b : Byte) (rest : List Byte), s.readReg a7 = 1 → s.consoleIn = b :: rest →
    ∃ t, exec .ecall s = .next t ∧ t.readReg a0 = b.signExtend 32 ∧ t.consoleIn = rest ∧
      t.consoleOut = s.consoleOut ∧ t.status = s.status ∧ EcallFrame s t

/-- With x17 = 1 and no byte supplied the core has no step (49_system.md R272, R318; the spec's decision D17; written as the
stuck state `consoleBlocked`, log entry 7), and once the host supplies a byte the same ECALL completes with it. -/
def Obligations.EcallBlocksUntilAByteIsSupplied : Prop :=
  ∀ (s : State) (b : Byte), s.readReg a7 = 1 → s.consoleIn = [] →
    exec .ecall s = .fault .consoleBlocked ∧
    ∃ t, exec .ecall (s.supply b) = .next t ∧ t.readReg a0 = b.signExtend 32 ∧ t.consoleIn = [] ∧
      t.consoleOut = s.consoleOut ∧ t.status = s.status ∧ EcallFrame s t

/-- With x17 = 2 ECALL sends bits 7:0 of x10 (49_system.md R273; the byte is the spec's decision D18) and writes no register:
it always completes in its step. -/
def Obligations.EcallWritesACharacter : Prop :=
  ∀ s : State, s.readReg a7 = 2 →
    ∃ t, exec .ecall s = .next t ∧ t.consoleOut = s.consoleOut ++ [(s.readReg a0).extractLsb' 0 8] ∧
      t.consoleIn = s.consoleIn ∧ SameRegs s t ∧ t.status = s.status ∧ EcallFrame s t

/-- With x17 = 3 or 93 ECALL retires and halts normally, writing no register and no memory; the outcome is the counter with
the exit counted, and Halted(normal) (49_system.md R274, 10_state.md R37; the counting and the missing exit code are the
spec's decisions D10 and D19). -/
def Obligations.EcallExits : Prop :=
  ∀ s : State, s.readReg a7 = 3 ∨ s.readReg a7 = 93 →
    ∃ t, exec .ecall s = .next t ∧ t.status = .haltedNormal ∧ t.outcome = some (s.instret + 1, .haltedNormal) ∧
      SameRegs s t ∧ SameConsole s t ∧ EcallFrame s t

/-- With any other value of x17, all 32 bits compared, ECALL halts with UnsupportedSyscall of that value and changes nothing
else (49_system.md R275; the comparison and the precise halt are the spec's decisions D20 and D9). -/
def Obligations.EcallRefusesUnknownNumbers : Prop :=
  ∀ s : State, s.readReg a7 ∉ [1#32, 2#32, 3#32, 93#32] →
    HaltsWith .ecall s (.unsupportedSyscall (s.readReg a7))

/-- The status codes 0 to 6 (60_exceptions.md R301; the codes are the spec's decision D22), and that there is an outcome
exactly when the status is halted (10_state.md R37). -/
def Obligations.StatusCodesAndOutcome : Prop :=
  (∀ (w a n : Word) (k : AccessKind) (j : TransferKind) (d : DataKind),
    Status.code .running = 0 ∧ Status.code .haltedNormal = 1 ∧ Status.code (.haltedError (.decodeError w)) = 2 ∧
    Status.code (.haltedError (.memoryAccessError k a)) = 3 ∧ Status.code (.haltedError (.unsupportedSyscall n)) = 4 ∧
    Status.code (.haltedError (.instructionAddressMisaligned j a)) = 5 ∧
    Status.code (.haltedError (.misalignedDataAccess d a)) = 6) ∧
  ∀ s : State, (s.status = .running → s.outcome = none) ∧
    (s.status ≠ .running → s.outcome = some (s.instret, s.status))
end

