-- ==== Sys2Proof/Laws/Decode.lean ====
section
/-! SUPPORT. The laws of encoding: the fields of an encoded word, the immediates, and a word as made of its fields. -/

namespace Sys2Proof

@[simp] theorem regOfBits_bitsOfReg (r : RegIdx) : regOfBits (bitsOfReg r) = r := rfl
@[simp] theorem bitsOfReg_regOfBits (b : BitVec 5) : bitsOfReg (regOfBits b) = b := rfl

/-! ### The R format -/

theorem bits_encodeR (f7 : BitVec 7) (rs2 rs1 : RegIdx) (f3 : BitVec 3) (rd : RegIdx) (op : BitVec 7)
    (s l : Nat) :
    BitVec.extractLsb' s l (encodeR f7 rs2 rs1 f3 rd op) =
      BitVec.extractLsb' (n := 7 + 5 + 5 + 3 + 5 + 7) s l
        (f7 ++ bitsOfReg rs2 ++ bitsOfReg rs1 ++ f3 ++ bitsOfReg rd ++ op) := rfl

@[simp] theorem opcodeOf_encodeR (f7 : BitVec 7) (rs2 rs1 : RegIdx) (f3 : BitVec 3) (rd : RegIdx) (op : BitVec 7) :
    opcodeOf (encodeR f7 rs2 rs1 f3 rd op) = op := by
  unfold opcodeOf
  simp (disch := decide) only [bits_encodeR, BitVec.extractLsb'_append_eq_of_add_le,
    BitVec.extractLsb'_eq_self]

@[simp] theorem rdOf_encodeR (f7 : BitVec 7) (rs2 rs1 : RegIdx) (f3 : BitVec 3) (rd : RegIdx) (op : BitVec 7) :
    rdOf (encodeR f7 rs2 rs1 f3 rd op) = rd := by
  unfold rdOf
  simp (disch := decide) only [bits_encodeR, BitVec.extractLsb'_append_eq_of_add_le,
    BitVec.extractLsb'_append_eq_of_le, Nat.reduceSub, BitVec.extractLsb'_eq_self, regOfBits_bitsOfReg]

@[simp] theorem funct3Of_encodeR (f7 : BitVec 7) (rs2 rs1 : RegIdx) (f3 : BitVec 3) (rd : RegIdx) (op : BitVec 7) :
    funct3Of (encodeR f7 rs2 rs1 f3 rd op) = f3 := by
  unfold funct3Of
  simp (disch := decide) only [bits_encodeR, BitVec.extractLsb'_append_eq_of_add_le,
    BitVec.extractLsb'_append_eq_of_le, Nat.reduceSub, BitVec.extractLsb'_eq_self]

@[simp] theorem rs1Of_encodeR (f7 : BitVec 7) (rs2 rs1 : RegIdx) (f3 : BitVec 3) (rd : RegIdx) (op : BitVec 7) :
    rs1Of (encodeR f7 rs2 rs1 f3 rd op) = rs1 := by
  unfold rs1Of
  simp (disch := decide) only [bits_encodeR, BitVec.extractLsb'_append_eq_of_add_le,
    BitVec.extractLsb'_append_eq_of_le, Nat.reduceSub, BitVec.extractLsb'_eq_self, regOfBits_bitsOfReg]

@[simp] theorem rs2Of_encodeR (f7 : BitVec 7) (rs2 rs1 : RegIdx) (f3 : BitVec 3) (rd : RegIdx) (op : BitVec 7) :
    rs2Of (encodeR f7 rs2 rs1 f3 rd op) = rs2 := by
  unfold rs2Of
  simp (disch := decide) only [bits_encodeR, BitVec.extractLsb'_append_eq_of_add_le,
    BitVec.extractLsb'_append_eq_of_le, Nat.reduceSub, BitVec.extractLsb'_eq_self, regOfBits_bitsOfReg]

@[simp] theorem funct7Of_encodeR (f7 : BitVec 7) (rs2 rs1 : RegIdx) (f3 : BitVec 3) (rd : RegIdx) (op : BitVec 7) :
    funct7Of (encodeR f7 rs2 rs1 f3 rd op) = f7 := by
  unfold funct7Of
  simp (disch := decide) only [bits_encodeR, BitVec.extractLsb'_append_eq_of_le, Nat.reduceSub,
    BitVec.extractLsb'_eq_self]

/-! ### The I format -/

theorem bits_encodeI (imm : Word) (rs1 : RegIdx) (f3 : BitVec 3) (rd : RegIdx) (op : BitVec 7)
    (s l : Nat) :
    BitVec.extractLsb' s l (encodeI imm rs1 f3 rd op) =
      BitVec.extractLsb' (n := 12 + 5 + 3 + 5 + 7) s l
        (imm.extractLsb' 0 12 ++ bitsOfReg rs1 ++ f3 ++ bitsOfReg rd ++ op) := rfl

@[simp] theorem opcodeOf_encodeI (imm : Word) (rs1 : RegIdx) (f3 : BitVec 3) (rd : RegIdx) (op : BitVec 7) :
    opcodeOf (encodeI imm rs1 f3 rd op) = op := by
  unfold opcodeOf
  simp (disch := decide) only [bits_encodeI, BitVec.extractLsb'_append_eq_of_add_le,
    BitVec.extractLsb'_eq_self]

@[simp] theorem rdOf_encodeI (imm : Word) (rs1 : RegIdx) (f3 : BitVec 3) (rd : RegIdx) (op : BitVec 7) :
    rdOf (encodeI imm rs1 f3 rd op) = rd := by
  unfold rdOf
  simp (disch := decide) only [bits_encodeI, BitVec.extractLsb'_append_eq_of_add_le,
    BitVec.extractLsb'_append_eq_of_le, Nat.reduceSub, BitVec.extractLsb'_eq_self, regOfBits_bitsOfReg]

@[simp] theorem funct3Of_encodeI (imm : Word) (rs1 : RegIdx) (f3 : BitVec 3) (rd : RegIdx) (op : BitVec 7) :
    funct3Of (encodeI imm rs1 f3 rd op) = f3 := by
  unfold funct3Of
  simp (disch := decide) only [bits_encodeI, BitVec.extractLsb'_append_eq_of_add_le,
    BitVec.extractLsb'_append_eq_of_le, Nat.reduceSub, BitVec.extractLsb'_eq_self]

@[simp] theorem rs1Of_encodeI (imm : Word) (rs1 : RegIdx) (f3 : BitVec 3) (rd : RegIdx) (op : BitVec 7) :
    rs1Of (encodeI imm rs1 f3 rd op) = rs1 := by
  unfold rs1Of
  simp (disch := decide) only [bits_encodeI, BitVec.extractLsb'_append_eq_of_add_le,
    BitVec.extractLsb'_append_eq_of_le, Nat.reduceSub, BitVec.extractLsb'_eq_self, regOfBits_bitsOfReg]

theorem immI_encodeI (imm : Word) (rs1 : RegIdx) (f3 : BitVec 3) (rd : RegIdx) (op : BitVec 7) :
    immI (encodeI imm rs1 f3 rd op) = (imm.extractLsb' 0 12).signExtend 32 := by
  unfold immI
  simp (disch := decide) only [bits_encodeI, BitVec.extractLsb'_append_eq_of_le, Nat.reduceSub,
    BitVec.extractLsb'_eq_self]

/-! ### The Shift format -/

theorem bits_encodeShift (f7 : BitVec 7) (shamt : BitVec 5) (rs1 : RegIdx) (f3 : BitVec 3) (rd : RegIdx) (op : BitVec 7)
    (s l : Nat) :
    BitVec.extractLsb' s l (encodeShift f7 shamt rs1 f3 rd op) =
      BitVec.extractLsb' (n := 7 + 5 + 5 + 3 + 5 + 7) s l
        (f7 ++ shamt ++ bitsOfReg rs1 ++ f3 ++ bitsOfReg rd ++ op) := rfl

@[simp] theorem opcodeOf_encodeShift (f7 : BitVec 7) (shamt : BitVec 5) (rs1 : RegIdx) (f3 : BitVec 3) (rd : RegIdx) (op : BitVec 7) :
    opcodeOf (encodeShift f7 shamt rs1 f3 rd op) = op := by
  unfold opcodeOf
  simp (disch := decide) only [bits_encodeShift, BitVec.extractLsb'_append_eq_of_add_le,
    BitVec.extractLsb'_eq_self]

@[simp] theorem rdOf_encodeShift (f7 : BitVec 7) (shamt : BitVec 5) (rs1 : RegIdx) (f3 : BitVec 3) (rd : RegIdx) (op : BitVec 7) :
    rdOf (encodeShift f7 shamt rs1 f3 rd op) = rd := by
  unfold rdOf
  simp (disch := decide) only [bits_encodeShift, BitVec.extractLsb'_append_eq_of_add_le,
    BitVec.extractLsb'_append_eq_of_le, Nat.reduceSub, BitVec.extractLsb'_eq_self, regOfBits_bitsOfReg]

@[simp] theorem funct3Of_encodeShift (f7 : BitVec 7) (shamt : BitVec 5) (rs1 : RegIdx) (f3 : BitVec 3) (rd : RegIdx) (op : BitVec 7) :
    funct3Of (encodeShift f7 shamt rs1 f3 rd op) = f3 := by
  unfold funct3Of
  simp (disch := decide) only [bits_encodeShift, BitVec.extractLsb'_append_eq_of_add_le,
    BitVec.extractLsb'_append_eq_of_le, Nat.reduceSub, BitVec.extractLsb'_eq_self]

@[simp] theorem rs1Of_encodeShift (f7 : BitVec 7) (shamt : BitVec 5) (rs1 : RegIdx) (f3 : BitVec 3) (rd : RegIdx) (op : BitVec 7) :
    rs1Of (encodeShift f7 shamt rs1 f3 rd op) = rs1 := by
  unfold rs1Of
  simp (disch := decide) only [bits_encodeShift, BitVec.extractLsb'_append_eq_of_add_le,
    BitVec.extractLsb'_append_eq_of_le, Nat.reduceSub, BitVec.extractLsb'_eq_self, regOfBits_bitsOfReg]

@[simp] theorem shamtOf_encodeShift (f7 : BitVec 7) (shamt : BitVec 5) (rs1 : RegIdx) (f3 : BitVec 3) (rd : RegIdx) (op : BitVec 7) :
    shamtOf (encodeShift f7 shamt rs1 f3 rd op) = shamt := by
  unfold shamtOf
  simp (disch := decide) only [bits_encodeShift, BitVec.extractLsb'_append_eq_of_add_le,
    BitVec.extractLsb'_append_eq_of_le, Nat.reduceSub, BitVec.extractLsb'_eq_self]

@[simp] theorem funct7Of_encodeShift (f7 : BitVec 7) (shamt : BitVec 5) (rs1 : RegIdx) (f3 : BitVec 3) (rd : RegIdx) (op : BitVec 7) :
    funct7Of (encodeShift f7 shamt rs1 f3 rd op) = f7 := by
  unfold funct7Of
  simp (disch := decide) only [bits_encodeShift, BitVec.extractLsb'_append_eq_of_le, Nat.reduceSub,
    BitVec.extractLsb'_eq_self]

/-! ### The S format -/

theorem bits_encodeS (imm : Word) (rs2 rs1 : RegIdx) (f3 : BitVec 3) (op : BitVec 7)
    (s l : Nat) :
    BitVec.extractLsb' s l (encodeS imm rs2 rs1 f3 op) =
      BitVec.extractLsb' (n := 7 + 5 + 5 + 3 + 5 + 7) s l
        (imm.extractLsb' 5 7 ++ bitsOfReg rs2 ++ bitsOfReg rs1 ++ f3 ++ imm.extractLsb' 0 5 ++ op) := rfl

@[simp] theorem opcodeOf_encodeS (imm : Word) (rs2 rs1 : RegIdx) (f3 : BitVec 3) (op : BitVec 7) :
    opcodeOf (encodeS imm rs2 rs1 f3 op) = op := by
  unfold opcodeOf
  simp (disch := decide) only [bits_encodeS, BitVec.extractLsb'_append_eq_of_add_le,
    BitVec.extractLsb'_eq_self]

@[simp] theorem funct3Of_encodeS (imm : Word) (rs2 rs1 : RegIdx) (f3 : BitVec 3) (op : BitVec 7) :
    funct3Of (encodeS imm rs2 rs1 f3 op) = f3 := by
  unfold funct3Of
  simp (disch := decide) only [bits_encodeS, BitVec.extractLsb'_append_eq_of_add_le,
    BitVec.extractLsb'_append_eq_of_le, Nat.reduceSub, BitVec.extractLsb'_eq_self]

@[simp] theorem rs1Of_encodeS (imm : Word) (rs2 rs1 : RegIdx) (f3 : BitVec 3) (op : BitVec 7) :
    rs1Of (encodeS imm rs2 rs1 f3 op) = rs1 := by
  unfold rs1Of
  simp (disch := decide) only [bits_encodeS, BitVec.extractLsb'_append_eq_of_add_le,
    BitVec.extractLsb'_append_eq_of_le, Nat.reduceSub, BitVec.extractLsb'_eq_self, regOfBits_bitsOfReg]

@[simp] theorem rs2Of_encodeS (imm : Word) (rs2 rs1 : RegIdx) (f3 : BitVec 3) (op : BitVec 7) :
    rs2Of (encodeS imm rs2 rs1 f3 op) = rs2 := by
  unfold rs2Of
  simp (disch := decide) only [bits_encodeS, BitVec.extractLsb'_append_eq_of_add_le,
    BitVec.extractLsb'_append_eq_of_le, Nat.reduceSub, BitVec.extractLsb'_eq_self, regOfBits_bitsOfReg]

theorem immS_encodeS (imm : Word) (rs2 rs1 : RegIdx) (f3 : BitVec 3) (op : BitVec 7) :
    immS (encodeS imm rs2 rs1 f3 op) = (imm.extractLsb' 0 12).signExtend 32 := by
  unfold immS
  simp (disch := decide) only [bits_encodeS, BitVec.extractLsb'_append_eq_of_add_le,
    BitVec.extractLsb'_append_eq_of_le, Nat.reduceSub, BitVec.extractLsb'_eq_self]
  congr 1
  exact BitVec.extractLsb'_append_extractLsb'_eq_extractLsb' rfl

/-! ### The B format -/

theorem bits_encodeB (imm : Word) (rs2 rs1 : RegIdx) (f3 : BitVec 3) (op : BitVec 7)
    (s l : Nat) :
    BitVec.extractLsb' s l (encodeB imm rs2 rs1 f3 op) =
      BitVec.extractLsb' (n := 1 + 6 + 5 + 5 + 3 + 4 + 1 + 7) s l
        (imm.extractLsb' 12 1 ++ imm.extractLsb' 5 6 ++ bitsOfReg rs2 ++ bitsOfReg rs1 ++ f3 ++
        imm.extractLsb' 1 4 ++ imm.extractLsb' 11 1 ++ op) := rfl

@[simp] theorem opcodeOf_encodeB (imm : Word) (rs2 rs1 : RegIdx) (f3 : BitVec 3) (op : BitVec 7) :
    opcodeOf (encodeB imm rs2 rs1 f3 op) = op := by
  unfold opcodeOf
  simp (disch := decide) only [bits_encodeB, BitVec.extractLsb'_append_eq_of_add_le,
    BitVec.extractLsb'_eq_self]

@[simp] theorem funct3Of_encodeB (imm : Word) (rs2 rs1 : RegIdx) (f3 : BitVec 3) (op : BitVec 7) :
    funct3Of (encodeB imm rs2 rs1 f3 op) = f3 := by
  unfold funct3Of
  simp (disch := decide) only [bits_encodeB, BitVec.extractLsb'_append_eq_of_add_le,
    BitVec.extractLsb'_append_eq_of_le, Nat.reduceSub, BitVec.extractLsb'_eq_self]

@[simp] theorem rs1Of_encodeB (imm : Word) (rs2 rs1 : RegIdx) (f3 : BitVec 3) (op : BitVec 7) :
    rs1Of (encodeB imm rs2 rs1 f3 op) = rs1 := by
  unfold rs1Of
  simp (disch := decide) only [bits_encodeB, BitVec.extractLsb'_append_eq_of_add_le,
    BitVec.extractLsb'_append_eq_of_le, Nat.reduceSub, BitVec.extractLsb'_eq_self, regOfBits_bitsOfReg]

@[simp] theorem rs2Of_encodeB (imm : Word) (rs2 rs1 : RegIdx) (f3 : BitVec 3) (op : BitVec 7) :
    rs2Of (encodeB imm rs2 rs1 f3 op) = rs2 := by
  unfold rs2Of
  simp (disch := decide) only [bits_encodeB, BitVec.extractLsb'_append_eq_of_add_le,
    BitVec.extractLsb'_append_eq_of_le, Nat.reduceSub, BitVec.extractLsb'_eq_self, regOfBits_bitsOfReg]

theorem immB_encodeB (imm : Word) (rs2 rs1 : RegIdx) (f3 : BitVec 3) (op : BitVec 7) :
    immB (encodeB imm rs2 rs1 f3 op) = (imm.extractLsb' 1 12 ++ 0#1).signExtend 32 := by
  unfold immB
  simp (disch := decide) only [bits_encodeB, BitVec.extractLsb'_append_eq_of_add_le,
    BitVec.extractLsb'_append_eq_of_le, Nat.reduceSub, BitVec.extractLsb'_eq_self]
  congr 1
  apply BitVec.eq_of_getLsbD_eq
  intro i hi
  show BitVec.getLsbD (w := 1 + 1 + 6 + 4 + 1) _ i = BitVec.getLsbD (w := 12 + 1) _ i
  simp only [BitVec.getLsbD_append, BitVec.getLsbD_extractLsb']
  split_ifs <;> first | rfl | grind

/-! ### The U format -/

theorem bits_encodeU (imm : Word) (rd : RegIdx) (op : BitVec 7)
    (s l : Nat) :
    BitVec.extractLsb' s l (encodeU imm rd op) =
      BitVec.extractLsb' (n := 20 + 5 + 7) s l
        (imm.extractLsb' 12 20 ++ bitsOfReg rd ++ op) := rfl

@[simp] theorem opcodeOf_encodeU (imm : Word) (rd : RegIdx) (op : BitVec 7) :
    opcodeOf (encodeU imm rd op) = op := by
  unfold opcodeOf
  simp (disch := decide) only [bits_encodeU, BitVec.extractLsb'_append_eq_of_add_le,
    BitVec.extractLsb'_eq_self]

@[simp] theorem rdOf_encodeU (imm : Word) (rd : RegIdx) (op : BitVec 7) :
    rdOf (encodeU imm rd op) = rd := by
  unfold rdOf
  simp (disch := decide) only [bits_encodeU, BitVec.extractLsb'_append_eq_of_add_le,
    BitVec.extractLsb'_append_eq_of_le, Nat.reduceSub, BitVec.extractLsb'_eq_self, regOfBits_bitsOfReg]

theorem immU_encodeU (imm : Word) (rd : RegIdx) (op : BitVec 7) :
    immU (encodeU imm rd op) = imm.extractLsb' 12 20 ++ 0#12 := by
  unfold immU
  simp (disch := decide) only [bits_encodeU, BitVec.extractLsb'_append_eq_of_le, Nat.reduceSub,
    BitVec.extractLsb'_eq_self]

/-! ### The J format -/

theorem bits_encodeJ (imm : Word) (rd : RegIdx) (op : BitVec 7)
    (s l : Nat) :
    BitVec.extractLsb' s l (encodeJ imm rd op) =
      BitVec.extractLsb' (n := 1 + 10 + 1 + 8 + 5 + 7) s l
        (imm.extractLsb' 20 1 ++ imm.extractLsb' 1 10 ++ imm.extractLsb' 11 1 ++ imm.extractLsb' 12 8 ++
        bitsOfReg rd ++ op) := rfl

@[simp] theorem opcodeOf_encodeJ (imm : Word) (rd : RegIdx) (op : BitVec 7) :
    opcodeOf (encodeJ imm rd op) = op := by
  unfold opcodeOf
  simp (disch := decide) only [bits_encodeJ, BitVec.extractLsb'_append_eq_of_add_le,
    BitVec.extractLsb'_eq_self]

@[simp] theorem rdOf_encodeJ (imm : Word) (rd : RegIdx) (op : BitVec 7) :
    rdOf (encodeJ imm rd op) = rd := by
  unfold rdOf
  simp (disch := decide) only [bits_encodeJ, BitVec.extractLsb'_append_eq_of_add_le,
    BitVec.extractLsb'_append_eq_of_le, Nat.reduceSub, BitVec.extractLsb'_eq_self, regOfBits_bitsOfReg]

theorem immJ_encodeJ (imm : Word) (rd : RegIdx) (op : BitVec 7) :
    immJ (encodeJ imm rd op) = (imm.extractLsb' 1 20 ++ 0#1).signExtend 32 := by
  unfold immJ
  simp (disch := decide) only [bits_encodeJ, BitVec.extractLsb'_append_eq_of_add_le,
    BitVec.extractLsb'_append_eq_of_le, Nat.reduceSub, BitVec.extractLsb'_eq_self]
  congr 1
  apply BitVec.eq_of_getLsbD_eq
  intro i hi
  show BitVec.getLsbD (w := 1 + 8 + 1 + 10 + 1) _ i = BitVec.getLsbD (w := 20 + 1) _ i
  simp only [BitVec.getLsbD_append, BitVec.getLsbD_extractLsb']
  split_ifs <;> first | rfl | grind

/-! ### Immediates -/

/-- The low twelve bits carry a twelve-bit immediate. -/
theorem signExtend_low12 {imm : Word} (h : fitsImm12 imm = true) : (imm.extractLsb' 0 12).signExtend 32 = imm := by
  simp only [fitsImm12, Bool.and_eq_true, decide_eq_true_eq] at h
  apply BitVec.eq_of_toInt_eq
  rw [BitVec.toInt_signExtend_of_le (by decide)]
  simp only [BitVec.toInt_eq_toNat_cond, BitVec.extractLsb'_toNat] at h ⊢
  have := imm.isLt
  omega

/-- Bits 12 to 1 carry a B-type immediate. -/
theorem signExtend_b {imm : Word} (h : fitsImmB imm = true) :
    (imm.extractLsb' 1 12 ++ 0#1).signExtend 32 = imm := by
  simp only [fitsImmB, Bool.and_eq_true, decide_eq_true_eq] at h
  apply BitVec.eq_of_toInt_eq
  rw [BitVec.toInt_signExtend_of_le (by decide)]
  simp only [BitVec.toInt_eq_toNat_cond, BitVec.toNat_append, BitVec.extractLsb'_toNat, Nat.shiftLeft_eq,
    Nat.shiftRight_eq_div_pow, BitVec.toNat_ofNat, Nat.zero_mod, Nat.or_zero] at h ⊢
  have := imm.isLt
  omega

/-- Bits 20 to 1 carry a J-type immediate. -/
theorem signExtend_j {imm : Word} (h : fitsImmJ imm = true) :
    (imm.extractLsb' 1 20 ++ 0#1).signExtend 32 = imm := by
  simp only [fitsImmJ, Bool.and_eq_true, decide_eq_true_eq] at h
  apply BitVec.eq_of_toInt_eq
  rw [BitVec.toInt_signExtend_of_le (by decide)]
  simp only [BitVec.toInt_eq_toNat_cond, BitVec.toNat_append, BitVec.extractLsb'_toNat, Nat.shiftLeft_eq,
    Nat.shiftRight_eq_div_pow, BitVec.toNat_ofNat, Nat.zero_mod, Nat.or_zero] at h ⊢
  have := imm.isLt
  omega

/-- Bits 31 to 12 carry a U-type immediate. -/
theorem append_u {imm : Word} (h : fitsImmU imm = true) : imm.extractLsb' 12 20 ++ 0#12 = imm := by
  simp only [fitsImmU, decide_eq_true_eq] at h
  apply BitVec.eq_of_toNat_eq
  show BitVec.toNat (w := 20 + 12) _ = _
  simp only [BitVec.toNat_append, BitVec.extractLsb'_toNat, Nat.shiftLeft_eq, Nat.shiftRight_eq_div_pow,
    BitVec.toNat_ofNat, Nat.zero_mod, Nat.or_zero]
  have := imm.isLt
  omega

/-- The low bits of a sign extension are the bits extended. -/
theorem extract_signExtend {n : Nat} (x : BitVec n) (s l : Nat) (h : s + l ≤ n) (hn : n ≤ 32) :
    (x.signExtend 32).extractLsb' s l = x.extractLsb' s l := by
  apply BitVec.eq_of_getLsbD_eq
  intro i hi
  simp only [BitVec.getLsbD_extractLsb', BitVec.getLsbD_signExtend]
  rw [if_pos (by omega)]
  simp [show s + i < 32 by omega]

/-! ### A word is made of its fields -/

theorem encodeR_fields (w : Word) :
    encodeR (funct7Of w) (rs2Of w) (rs1Of w) (funct3Of w) (rdOf w) (opcodeOf w) = w := by
  simp only [encodeR, funct7Of, rs2Of, rs1Of, funct3Of, rdOf, opcodeOf, bitsOfReg_regOfBits]
  rw [BitVec.extractLsb'_append_extractLsb'_eq_extractLsb' (show 25 = 20 + 5 from rfl)]
  rw [BitVec.extractLsb'_append_extractLsb'_eq_extractLsb' (show 20 = 15 + 5 from rfl)]
  rw [BitVec.extractLsb'_append_extractLsb'_eq_extractLsb' (show 15 = 12 + 3 from rfl)]
  rw [BitVec.extractLsb'_append_extractLsb'_eq_extractLsb' (show 12 = 7 + 5 from rfl)]
  rw [BitVec.extractLsb'_append_extractLsb'_eq_extractLsb' (show 7 = 0 + 7 from rfl)]
  exact BitVec.extractLsb'_eq_self

theorem encodeShift_fields (w : Word) :
    encodeShift (funct7Of w) (shamtOf w) (rs1Of w) (funct3Of w) (rdOf w) (opcodeOf w) = w :=
  encodeR_fields w

theorem encodeI_fields (w : Word) : encodeI (immI w) (rs1Of w) (funct3Of w) (rdOf w) (opcodeOf w) = w := by
  simp only [encodeI, immI, rs1Of, funct3Of, rdOf, opcodeOf, bitsOfReg_regOfBits]
  rw [extract_signExtend _ 0 12 (by decide) (by decide), BitVec.extractLsb'_eq_self]
  rw [BitVec.extractLsb'_append_extractLsb'_eq_extractLsb' (show 20 = 15 + 5 from rfl)]
  rw [BitVec.extractLsb'_append_extractLsb'_eq_extractLsb' (show 15 = 12 + 3 from rfl)]
  rw [BitVec.extractLsb'_append_extractLsb'_eq_extractLsb' (show 12 = 7 + 5 from rfl)]
  rw [BitVec.extractLsb'_append_extractLsb'_eq_extractLsb' (show 7 = 0 + 7 from rfl)]
  exact BitVec.extractLsb'_eq_self

theorem encodeU_fields (w : Word) : encodeU (immU w) (rdOf w) (opcodeOf w) = w := by
  have h : (immU w).extractLsb' 12 20 = w.extractLsb' 12 20 :=
    BitVec.extractLsb'_append_eq_left (a := w.extractLsb' 12 20) (b := 0#12)
  simp only [encodeU, h, rdOf, opcodeOf, bitsOfReg_regOfBits]
  rw [BitVec.extractLsb'_append_extractLsb'_eq_extractLsb' (show 12 = 7 + 5 from rfl)]
  rw [BitVec.extractLsb'_append_extractLsb'_eq_extractLsb' (show 7 = 0 + 7 from rfl)]
  exact BitVec.extractLsb'_eq_self

theorem encodeS_fields (w : Word) : encodeS (immS w) (rs2Of w) (rs1Of w) (funct3Of w) (opcodeOf w) = w := by
  have h1 : (immS w).extractLsb' 5 7 = w.extractLsb' 25 7 := by
    rw [immS, extract_signExtend _ 5 7 (by decide) (by decide), BitVec.extractLsb'_append_eq_left]
  have h2 : (immS w).extractLsb' 0 5 = w.extractLsb' 7 5 := by
    rw [immS, extract_signExtend _ 0 5 (by decide) (by decide), BitVec.extractLsb'_append_eq_right]
  simp only [encodeS, h1, h2, rs2Of, rs1Of, funct3Of, opcodeOf, bitsOfReg_regOfBits]
  rw [BitVec.extractLsb'_append_extractLsb'_eq_extractLsb' (show 25 = 20 + 5 from rfl)]
  rw [BitVec.extractLsb'_append_extractLsb'_eq_extractLsb' (show 20 = 15 + 5 from rfl)]
  rw [BitVec.extractLsb'_append_extractLsb'_eq_extractLsb' (show 15 = 12 + 3 from rfl)]
  rw [BitVec.extractLsb'_append_extractLsb'_eq_extractLsb' (show 12 = 7 + 5 from rfl)]
  rw [BitVec.extractLsb'_append_extractLsb'_eq_extractLsb' (show 7 = 0 + 7 from rfl)]
  exact BitVec.extractLsb'_eq_self

theorem encodeB_fields (w : Word) : encodeB (immB w) (rs2Of w) (rs1Of w) (funct3Of w) (opcodeOf w) = w := by
  have h (s l : Nat) (hs : s + l ≤ 13) : (immB w).extractLsb' s l = BitVec.extractLsb' (n := 1 + 1 + 6 + 4 + 1) s l
      (w.extractLsb' 31 1 ++ w.extractLsb' 7 1 ++ w.extractLsb' 25 6 ++ w.extractLsb' 8 4 ++ 0#1) :=
    extract_signExtend _ s l hs (by decide)
  simp (disch := decide) only [encodeB, h, BitVec.extractLsb'_append_eq_of_add_le,
    BitVec.extractLsb'_append_eq_of_le, Nat.reduceSub, BitVec.extractLsb'_eq_self, rs2Of, rs1Of, funct3Of, opcodeOf,
    bitsOfReg_regOfBits]
  rw [BitVec.extractLsb'_append_extractLsb'_eq_extractLsb' (show 31 = 25 + 6 from rfl)]
  rw [BitVec.extractLsb'_append_extractLsb'_eq_extractLsb' (show 25 = 20 + 5 from rfl)]
  rw [BitVec.extractLsb'_append_extractLsb'_eq_extractLsb' (show 20 = 15 + 5 from rfl)]
  rw [BitVec.extractLsb'_append_extractLsb'_eq_extractLsb' (show 15 = 12 + 3 from rfl)]
  rw [BitVec.extractLsb'_append_extractLsb'_eq_extractLsb' (show 12 = 8 + 4 from rfl)]
  rw [BitVec.extractLsb'_append_extractLsb'_eq_extractLsb' (show 8 = 7 + 1 from rfl)]
  rw [BitVec.extractLsb'_append_extractLsb'_eq_extractLsb' (show 7 = 0 + 7 from rfl)]
  exact BitVec.extractLsb'_eq_self

theorem encodeJ_fields (w : Word) : encodeJ (immJ w) (rdOf w) (opcodeOf w) = w := by
  have h (s l : Nat) (hs : s + l ≤ 21) : (immJ w).extractLsb' s l = BitVec.extractLsb' (n := 1 + 8 + 1 + 10 + 1) s l
      (w.extractLsb' 31 1 ++ w.extractLsb' 12 8 ++ w.extractLsb' 20 1 ++ w.extractLsb' 21 10 ++ 0#1) :=
    extract_signExtend _ s l hs (by decide)
  simp (disch := decide) only [encodeJ, h, BitVec.extractLsb'_append_eq_of_add_le,
    BitVec.extractLsb'_append_eq_of_le, Nat.reduceSub, BitVec.extractLsb'_eq_self, rdOf, opcodeOf, bitsOfReg_regOfBits]
  rw [BitVec.extractLsb'_append_extractLsb'_eq_extractLsb' (show 31 = 21 + 10 from rfl)]
  rw [BitVec.extractLsb'_append_extractLsb'_eq_extractLsb' (show 21 = 20 + 1 from rfl)]
  rw [BitVec.extractLsb'_append_extractLsb'_eq_extractLsb' (show 20 = 12 + 8 from rfl)]
  rw [BitVec.extractLsb'_append_extractLsb'_eq_extractLsb' (show 12 = 7 + 5 from rfl)]
  rw [BitVec.extractLsb'_append_extractLsb'_eq_extractLsb' (show 7 = 0 + 7 from rfl)]
  exact BitVec.extractLsb'_eq_self


/-! ### The decoder, by major opcode -/

theorem decode_load {w : Word} (h : opcodeOf w = 0b0000011#7) : decode w = decodeLoad w := by simp [decode, h]
theorem decode_opImm {w : Word} (h : opcodeOf w = 0b0010011#7) : decode w = decodeOpImm w := by simp [decode, h]
theorem decode_auipc {w : Word} (h : opcodeOf w = 0b0010111#7) : decode w = .ok (.auipc (rdOf w) (immU w)) := by
  simp [decode, h]
theorem decode_store {w : Word} (h : opcodeOf w = 0b0100011#7) : decode w = decodeStore w := by simp [decode, h]
theorem decode_op {w : Word} (h : opcodeOf w = 0b0110011#7) : decode w = decodeOp w := by simp [decode, h]
theorem decode_lui {w : Word} (h : opcodeOf w = 0b0110111#7) : decode w = .ok (.lui (rdOf w) (immU w)) := by
  simp [decode, h]
theorem decode_branch {w : Word} (h : opcodeOf w = 0b1100011#7) : decode w = decodeBranch w := by simp [decode, h]
theorem decode_jalr {w : Word} (h : opcodeOf w = 0b1100111#7) : decode w = decodeJalr w := by simp [decode, h]
theorem decode_jal {w : Word} (h : opcodeOf w = 0b1101111#7) : decode w = .ok (.jal (rdOf w) (immJ w)) := by
  simp [decode, h]
theorem decode_system {w : Word} (h : opcodeOf w = 0b1110011#7) : decode w = decodeSystem w := by simp [decode, h]


/-! ### The opcode table's masks, in terms of the fields -/

theorem mask_opcode (w : Word) : w &&& 0x0000007F#32 = 0#25 ++ opcodeOf w := by
  apply BitVec.eq_of_getLsbD_eq
  intro i hi
  show _ = BitVec.getLsbD (w := 25 + 7) _ i
  simp only [BitVec.getLsbD_append, BitVec.getLsbD_and, opcodeOf]
  interval_cases i <;> simp

theorem mask_funct3 (w : Word) : w &&& 0x0000707F#32 = 0#17 ++ funct3Of w ++ 0#5 ++ opcodeOf w := by
  apply BitVec.eq_of_getLsbD_eq
  intro i hi
  show _ = BitVec.getLsbD (w := 17 + 3 + 5 + 7) _ i
  simp only [BitVec.getLsbD_append, BitVec.getLsbD_and, opcodeOf, funct3Of]
  interval_cases i <;> simp

theorem mask_funct7 (w : Word) :
    w &&& 0xFE00707F#32 = funct7Of w ++ 0#10 ++ funct3Of w ++ 0#5 ++ opcodeOf w := by
  apply BitVec.eq_of_getLsbD_eq
  intro i hi
  show _ = BitVec.getLsbD (w := 7 + 10 + 3 + 5 + 7) _ i
  simp only [BitVec.getLsbD_append, BitVec.getLsbD_and, opcodeOf, funct3Of, funct7Of]
  interval_cases i <;> simp

/-- A word under a row's mask has the row's fields. -/
theorem opcode_of_mask {w v : Word} (h : w &&& 0x0000007F#32 = v) : opcodeOf w = opcodeOf v := by
  subst v; rw [mask_opcode]; exact (BitVec.extractLsb'_append_eq_right (a := 0#25) (b := opcodeOf w)).symm

theorem funct3_of_mask {w v : Word} (h : w &&& 0x0000707F#32 = v) :
    opcodeOf w = opcodeOf v ∧ funct3Of w = funct3Of v := by
  have := fun (s l : Nat) => congrArg (BitVec.extractLsb' (n := 17 + 3 + 5 + 7) s l) ((mask_funct3 w).symm.trans h)
  constructor
  · have h := this 0 7
    rwa [BitVec.extractLsb'_append_eq_right] at h
  · have h := this 12 3
    simpa (disch := decide) only [BitVec.extractLsb'_append_eq_of_add_le,
      BitVec.extractLsb'_append_eq_of_le, Nat.reduceSub, BitVec.extractLsb'_eq_self, funct3Of, funct7Of] using h

theorem funct7_of_mask {w v : Word} (h : w &&& 0xFE00707F#32 = v) :
    opcodeOf w = opcodeOf v ∧ funct3Of w = funct3Of v ∧ funct7Of w = funct7Of v := by
  have := fun (s l : Nat) =>
    congrArg (BitVec.extractLsb' (n := 7 + 10 + 3 + 5 + 7) s l) ((mask_funct7 w).symm.trans h)
  refine ⟨?_, ?_, ?_⟩
  · have h := this 0 7
    rwa [BitVec.extractLsb'_append_eq_right] at h
  · have h := this 12 3
    simpa (disch := decide) only [BitVec.extractLsb'_append_eq_of_add_le,
      BitVec.extractLsb'_append_eq_of_le, Nat.reduceSub, BitVec.extractLsb'_eq_self, funct3Of, funct7Of] using h
  · have h := this 25 7
    simpa (disch := decide) only [BitVec.extractLsb'_append_eq_of_add_le,
      BitVec.extractLsb'_append_eq_of_le, Nat.reduceSub, BitVec.extractLsb'_eq_self, funct3Of, funct7Of] using h

/-! ### Bytes -/

theorem wordOfBytes_byteOfWord (w : Word) :
    wordOfBytes (byteOfWord w 0) (byteOfWord w 1) (byteOfWord w 2) (byteOfWord w 3) = w := by
  simp only [wordOfBytes, byteOfWord]
  rw [BitVec.extractLsb'_append_extractLsb'_eq_extractLsb' (show 8 * 3 = 8 * 2 + 8 from rfl)]
  rw [BitVec.extractLsb'_append_extractLsb'_eq_extractLsb' (show 8 * 2 = 8 * 1 + 8 from rfl)]
  rw [BitVec.extractLsb'_append_extractLsb'_eq_extractLsb' (show 8 * 1 = 8 * 0 + 8 from rfl)]
  exact BitVec.extractLsb'_eq_self

/-! ### Every immediate a format carries is one the format can carry -/

/-- Appending a zero bit makes the sign extension even. -/
theorem even_signExtend {n : Nat} (x : BitVec n) : ((x ++ 0#1).signExtend 32).toNat % 2 = 0 := by
  have h : ((x ++ 0#1).signExtend 32).getLsbD 0 = false := by
    rw [BitVec.getLsbD_signExtend, if_pos (by omega), BitVec.getLsbD_append]; simp
  rw [BitVec.getLsbD, Nat.testBit_zero] at h
  simpa using h

theorem fitsImm12_signExtend (imm : BitVec 12) : fitsImm12 (imm.signExtend 32) = true := by
  simp only [fitsImm12, Bool.and_eq_true, decide_eq_true_eq, BitVec.toInt_signExtend_of_le (show 12 ≤ 32 by decide)]
  have := BitVec.toInt_lt (x := imm)
  have := BitVec.le_toInt (x := imm)
  omega

theorem fitsImmB_signExtend (off : BitVec 12) : fitsImmB ((off ++ 0#1).signExtend 32) = true := by
  have he : ((off ++ 0#1).signExtend 32).toNat % 2 = 0 := even_signExtend _
  have hi : ((off ++ 0#1).signExtend 32).toInt = _ := BitVec.toInt_signExtend_of_le (by decide)
  have h2 := BitVec.toInt_lt (x := off ++ 0#1)
  have h3 := BitVec.le_toInt (x := off ++ 0#1)
  rw [← hi] at h2 h3
  have hc := BitVec.toInt_eq_toNat_cond ((off ++ 0#1).signExtend 32)
  simp only [fitsImmB, Bool.and_eq_true, decide_eq_true_eq]
  norm_num at h2 h3
  refine ⟨⟨h3, ?_⟩, he⟩
  split at hc <;> omega

theorem fitsImmJ_signExtend (off : BitVec 20) : fitsImmJ ((off ++ 0#1).signExtend 32) = true := by
  have he : ((off ++ 0#1).signExtend 32).toNat % 2 = 0 := even_signExtend _
  have hi : ((off ++ 0#1).signExtend 32).toInt = _ := BitVec.toInt_signExtend_of_le (by decide)
  have h2 := BitVec.toInt_lt (x := off ++ 0#1)
  have h3 := BitVec.le_toInt (x := off ++ 0#1)
  rw [← hi] at h2 h3
  have hc := BitVec.toInt_eq_toNat_cond ((off ++ 0#1).signExtend 32)
  simp only [fitsImmJ, Bool.and_eq_true, decide_eq_true_eq]
  norm_num at h2 h3
  refine ⟨⟨h3, ?_⟩, he⟩
  split at hc <;> omega

theorem fitsImmU_append (imm20 : BitVec 20) : fitsImmU (imm20 ++ 0#12) = true := by
  simp only [fitsImmU, decide_eq_true_eq]
  show BitVec.toNat (w := 20 + 12) (imm20 ++ 0#12) % 4096 = 0
  rw [BitVec.toNat_append]; simp [Nat.shiftLeft_eq]

theorem fitsImm12_immI (w : Word) : fitsImm12 (immI w) = true := fitsImm12_signExtend _
theorem fitsImm12_immS (w : Word) : fitsImm12 (immS w) = true := fitsImm12_signExtend _
theorem fitsImmB_immB (w : Word) : fitsImmB (immB w) = true := fitsImmB_signExtend _
theorem fitsImmU_immU (w : Word) : fitsImmU (immU w) = true := fitsImmU_append _
theorem fitsImmJ_immJ (w : Word) : fitsImmJ (immJ w) = true := fitsImmJ_signExtend _

end Sys2Proof
end

