-- ==== Sys2Proof/Laws/State.lean ====
section
/-! SUPPORT. One lemma per field per update of the state. -/

namespace Sys2Proof.Machine

/-! ### Raising an error -/

@[simp] theorem raise_regs (s : State) (e) : (s.raise e).regs = s.regs := rfl
@[simp] theorem raise_pc (s : State) (e) : (s.raise e).pc = s.pc := rfl
@[simp] theorem raise_instret (s : State) (e) : (s.raise e).instret = s.instret := rfl
@[simp] theorem raise_status (s : State) (e) : (s.raise e).status = .haltedError e := rfl
@[simp] theorem raise_mem (s : State) (e) : (s.raise e).mem = s.mem := rfl
@[simp] theorem raise_consoleIn (s : State) (e) : (s.raise e).consoleIn = s.consoleIn := rfl
@[simp] theorem raise_consoleOut (s : State) (e) : (s.raise e).consoleOut = s.consoleOut := rfl
@[simp] theorem raise_trace (s : State) (e) : (s.raise e).trace = s.trace := rfl
@[simp] theorem raise_params (s : State) (e) : (s.raise e).params = s.params := rfl

/-! ### Committing an effect -/

@[simp] theorem commit_regs (s : State) (e) : (s.commit e).regs = e.regsAfter s.regs := rfl
@[simp] theorem commit_pc (s : State) (e) : (s.commit e).pc = e.nextPc := rfl
@[simp] theorem commit_instret (s : State) (e) : (s.commit e).instret = s.instret + 1 := rfl
@[simp] theorem commit_status (s : State) (e) :
    (s.commit e).status = if e.halt then .haltedNormal else s.status := rfl
@[simp] theorem commit_mem (s : State) (e) : (s.commit e).mem = e.memAfter s.mem := rfl
@[simp] theorem commit_consoleIn (s : State) (e) : (s.commit e).consoleIn = e.consoleInAfter s.consoleIn := rfl
@[simp] theorem commit_consoleOut (s : State) (e) :
    (s.commit e).consoleOut = e.consoleOutAfter s.consoleOut := rfl
@[simp] theorem commit_trace (s : State) (e) : (s.commit e).trace = s.trace.map (· ++ [s.traceRecord e]) := rfl
@[simp] theorem commit_params (s : State) (e) : (s.commit e).params = s.params := rfl

/-! ### The parts of an effect -/

@[simp] theorem regsAfter_some (r v m n c w h regs) :
    (Effect.mk (some (r, v)) m n c w h).regsAfter regs = RegFile.write regs r v := rfl
@[simp] theorem regsAfter_none (m n c w h regs) : (Effect.mk none m n c w h).regsAfter regs = regs := rfl
@[simp] theorem memAfter_some (r st n c w h m) :
    (Effect.mk r (some st) n c w h).memAfter m = Memory.writeBytes m st.addr (bytesOf st.value st.width) := rfl
@[simp] theorem memAfter_none (r n c w h m) : (Effect.mk r none n c w h).memAfter m = m := rfl
@[simp] theorem consoleInAfter_true (r m n w h l) : (Effect.mk r m n true w h).consoleInAfter l = l.drop 1 := rfl
@[simp] theorem consoleInAfter_false (r m n w h l) : (Effect.mk r m n false w h).consoleInAfter l = l := rfl
@[simp] theorem consoleOutAfter_some (r m n c b h l) :
    (Effect.mk r m n c (some b) h).consoleOutAfter l = l ++ [b] := rfl
@[simp] theorem consoleOutAfter_none (r m n c h l) : (Effect.mk r m n c none h).consoleOutAfter l = l := rfl

/-! ### The host's byte -/

@[simp] theorem supply_regs (s : State) (b) : (s.supply b).regs = s.regs := rfl
@[simp] theorem supply_pc (s : State) (b) : (s.supply b).pc = s.pc := rfl
@[simp] theorem supply_instret (s : State) (b) : (s.supply b).instret = s.instret := rfl
@[simp] theorem supply_status (s : State) (b) : (s.supply b).status = s.status := rfl
@[simp] theorem supply_mem (s : State) (b) : (s.supply b).mem = s.mem := rfl
@[simp] theorem supply_consoleIn (s : State) (b) : (s.supply b).consoleIn = s.consoleIn ++ [b] := rfl
@[simp] theorem supply_consoleOut (s : State) (b) : (s.supply b).consoleOut = s.consoleOut := rfl
@[simp] theorem supply_trace (s : State) (b) : (s.supply b).trace = s.trace := rfl
@[simp] theorem supply_params (s : State) (b) : (s.supply b).params = s.params := rfl

end Sys2Proof.Machine
end

