-- ==== Sys2Proof/Laws/Memory.lean ====
section
/-! SUPPORT. The laws of memory: a read after a write, and that every memory operation keeps the canonical form. -/

namespace Sys2Proof.Machine

@[simp] theorem read?_write_same (m : Memory) (k : Nat) (v : Byte) : Memory.read? (Memory.write m k v) k = some v := by
  induction m with
  | nil => simp [Memory.write, Memory.read?]
  | cons c rest ih =>
    obtain ⟨a, b⟩ := c
    simp only [Memory.write]
    split
    · simp [Memory.read?]
    · split
      · simp [Memory.read?]
      · simp [Memory.read?, *]

theorem read?_write_other (m : Memory) {j k : Nat} (v : Byte) (h : j ≠ k) :
    Memory.read? (Memory.write m k v) j = Memory.read? m j := by
  induction m with
  | nil => simp [Memory.write, Memory.read?, h]
  | cons c rest ih =>
    obtain ⟨a, b⟩ := c
    simp only [Memory.write]
    split
    · simp [Memory.read?, h]
    · split
      · subst k; simp [Memory.read?, h]
      · simp [Memory.read?, ih]

theorem mem_write {m : Memory} {k : Nat} {v : Byte} {c : Host.Cell} (h : c ∈ Memory.write m k v) :
    c = (k, v) ∨ c ∈ m := by
  induction m with
  | nil => simpa [Memory.write] using h
  | cons d rest ih =>
    obtain ⟨a, b⟩ := d
    simp only [Memory.write] at h
    split at h
    · simpa using h
    · split at h
      · rcases List.mem_cons.1 h with h | h
        · exact .inl h
        · exact .inr (List.mem_cons_of_mem _ h)
      · rcases List.mem_cons.1 h with h | h
        · exact .inr (h ▸ List.mem_cons_self ..)
        · exact (ih h).imp_right (List.mem_cons_of_mem _)

theorem write_wf {m : Memory} {k : Nat} (v : Byte) (hm : Memory.wf m) (hk : k < 2 ^ 32) :
    Memory.wf (Memory.write m k v) := by
  refine ⟨?_, fun c hc => ?_⟩
  · have hp := hm.1
    clear hm hk
    induction m with
    | nil => simp [Memory.write]
    | cons c rest ih =>
      obtain ⟨a, b⟩ := c
      rw [List.pairwise_cons] at hp
      simp only [Memory.write]
      split
      · rename_i hlt
        refine List.pairwise_cons.2 ⟨fun d hd => ?_, List.pairwise_cons.2 hp⟩
        rcases List.mem_cons.1 hd with rfl | hd
        · exact hlt
        · exact Nat.lt_trans hlt (hp.1 d hd)
      · split
        · subst k; exact List.pairwise_cons.2 hp
        · refine List.pairwise_cons.2 ⟨fun d hd => ?_, ih hp.2⟩
          rcases mem_write hd with rfl | hd
          · show a < k; omega
          · exact hp.1 d hd
  · rcases mem_write hc with rfl | hc
    · exact hk
    · exact hm.2 c hc

theorem writeBytes_wf {m : Memory} (a : Word) (bytes : List Byte) (hm : Memory.wf m) :
    Memory.wf (Memory.writeBytes m a bytes) := by
  induction bytes generalizing m a with
  | nil => exact hm
  | cons b rest ih => exact ih _ (write_wf b hm a.isLt)

theorem ofImage_wf (image : List (Word × Byte)) : Memory.wf (Memory.ofImage image) := by
  suffices h : ∀ m, Memory.wf m → Memory.wf (image.foldl (fun m c => Memory.write m c.1.toNat c.2) m) from
    h [] (by simp [Memory.wf])
  induction image with
  | nil => exact fun m hm => hm
  | cons c rest ih => exact fun m hm => ih _ (write_wf c.2 hm c.1.isLt)

/-- Reading outside the bytes written. -/
theorem read?_writeBytes_other {m : Memory} {a b : Word} {bytes : List Byte}
    (h : ∀ k < bytes.length, b ≠ a + BitVec.ofNat 32 k) :
    Memory.read? (Memory.writeBytes m a bytes) b.toNat = Memory.read? m b.toNat := by
  induction bytes generalizing m a with
  | nil => rfl
  | cons v rest ih =>
    have h0 : b ≠ a := by simpa using h 0 (by simp)
    rw [Memory.writeBytes, ih, read?_write_other]
    · exact fun e => h0 (BitVec.eq_of_toNat_eq e)
    · intro k hk e
      refine h (k + 1) (by simpa using hk) (e.trans ?_)
      rw [BitVec.add_assoc]
      congr 1
      apply BitVec.eq_of_toNat_eq
      simp [Nat.add_comm]

/-- Reading one of the bytes written, when they do not wrap onto themselves. -/
theorem read?_writeBytes_at {m : Memory} {a : Word} {bytes : List Byte} (hlen : bytes.length ≤ 2 ^ 32) {k : Nat}
    (hk : k < bytes.length) :
    Memory.read? (Memory.writeBytes m a bytes) (a + BitVec.ofNat 32 k).toNat = some bytes[k] := by
  induction bytes generalizing m a k with
  | nil => simp at hk
  | cons v rest ih =>
    simp only [List.length_cons] at hlen hk
    cases k with
    | zero =>
      rw [Memory.writeBytes, read?_writeBytes_other]
      · simp
      · intro j hj e
        have := congrArg BitVec.toNat e
        simp at this
        have ha := a.isLt
        omega
    | succ k =>
      have : a + BitVec.ofNat 32 (k + 1) = a + 1 + BitVec.ofNat 32 k := by
        rw [BitVec.add_assoc]; congr 1; apply BitVec.eq_of_toNat_eq; simp [Nat.add_comm]
      rw [Memory.writeBytes, this, ih (by omega) (by omega)]
      simp

@[simp] theorem bytesOf_length (v : Word) (w : Width) : (bytesOf v w).length = w.bytes := by
  cases w <;> rfl

theorem bytesOf_getElem (v : Word) (w : Width) {k : Nat} (hk : k < (bytesOf v w).length) :
    (bytesOf v w)[k] = byteOfWord v k := by
  cases w <;> simp [Width.bytes] at hk <;> revert hk <;> intro hk
  · obtain rfl : k = 0 := by omega
    rfl
  · obtain rfl | rfl : k = 0 ∨ k = 1 := by omega
    all_goals rfl
  · obtain rfl | rfl | rfl | rfl : k = 0 ∨ k = 1 ∨ k = 2 ∨ k = 3 := by omega
    all_goals rfl

end Sys2Proof.Machine
end

