-- ==== Sys2Proof/Laws/Ops.lean ====
section
/-! SUPPORT. What each shared operation can do, said once. -/

namespace Sys2Proof.Machine

/-! ### Registers -/

@[simp] theorem readReg_zero (s : State) : s.readReg 0 = 0 := by simp [State.readReg]

theorem readReg_congr {s t : State} (h : t.regs = s.regs) (r : RegIdx) : t.readReg r = s.readReg r := by
  simp [State.readReg, h]

/-- Reading a register after a register write. -/
theorem readReg_write {s t : State} {rd : RegIdx} {v : Word} (h : t.regs = RegFile.write s.regs rd v) (r : RegIdx) :
    t.readReg r = if r = rd then (if rd = 0 then 0 else v) else s.readReg r := by
  by_cases hr : r = rd
  · subst r
    by_cases h0 : rd = 0
    · simp [State.readReg, h0]
    · simp [State.readReg, h, RegFile.write, h0]
  · by_cases h0 : rd = 0
    · simp [State.readReg, h, RegFile.write, h0, show r ≠ 0 from h0 ▸ hr]
    · have hne : (rd : Nat) ≠ (r : Nat) := fun e => hr (Fin.ext e.symm)
      simp [State.readReg, h, RegFile.write, h0, hr, hne]

/-- A register write never changes the stored x0. -/
theorem write_zero_slot (regs : Vector Word 32) (r : RegIdx) (v : Word) : (RegFile.write regs r v)[0] = regs[0] := by
  by_cases h0 : r = 0
  · simp [RegFile.write, h0]
  · have : (r : Nat) ≠ 0 := fun e => h0 (Fin.ext e)
    simp [RegFile.write, h0, this]

/-! ### Memory -/

theorem byteAt_congr {s t : State} (h : t.mem = s.mem) (a : Word) : t.byteAt a = s.byteAt a := by
  simp [State.byteAt, h]

/-- A byte the store wrote. -/
theorem byteAt_written {s t : State} {a v : Word} {w : Width}
    (h : t.mem = Memory.writeBytes s.mem a (bytesOf v w)) {k : Nat} (hk : k < w.bytes) :
    t.byteAt (a + BitVec.ofNat 32 k) = v.extractLsb' (8 * k) 8 := by
  have hl : w.bytes ≤ 2 ^ 32 := by cases w <;> decide
  have := read?_writeBytes_at (m := s.mem) (a := a) (bytes := bytesOf v w) (by simpa using hl) (k := k) (by simpa using hk)
  rw [State.byteAt, h, this, bytesOf_getElem]
  rfl

/-- A byte outside the store. -/
theorem byteAt_not_written {s t : State} {a v : Word} {w : Width}
    (h : t.mem = Memory.writeBytes s.mem a (bytesOf v w)) : SameMemoryExcept a w.bytes s t := by
  intro b hb
  rw [State.byteAt, h, read?_writeBytes_other (by simpa using hb)]
  rfl

theorem isMapped_iff {s : State} {a : Word} : s.isMapped a = true ↔ MappedByte s a := by
  simp [State.isMapped, MappedByte]

theorem allMapped_iff {s : State} {a : Word} {n : Nat} : s.allMapped a n = true ↔ MappedAccess s a n := by
  simp [State.allMapped, MappedAccess, isMapped_iff]

theorem isAligned_iff {a : Word} {n : Nat} : isAligned a n = true ↔ a.toNat % n = 0 := by
  simp [isAligned]

theorem accessError_misaligned {s : State} {kind : DataKind} {a : Word} {n : Nat} (h : MisalignedUnderFault s a n) :
    s.accessError kind a n = some (.misalignedDataAccess kind a) := by
  simp [State.accessError, isAligned, h.1, h.2]

theorem accessError_unmapped {s : State} {kind : DataKind} {a : Word} {n : Nat} (h : ¬ MisalignedUnderFault s a n)
    (hm : ¬ MappedAccess s a n) : s.accessError kind a n = some (.memoryAccessError kind.access a) := by
  have hm' : s.allMapped a n = false := by rwa [← Bool.not_eq_true, allMapped_iff]
  simp only [State.accessError, hm', if_pos]
  rw [if_neg]
  rintro ⟨hp, ha⟩
  exact h ⟨hp, by simpa [isAligned] using ha⟩

theorem accessError_none {s : State} {kind : DataKind} {a : Word} {n : Nat} (h : ¬ MisalignedUnderFault s a n)
    (hm : MappedAccess s a n) : s.accessError kind a n = none := by
  have hm' : s.allMapped a n = true := allMapped_iff.2 hm
  simp only [State.accessError, hm']
  rw [if_neg]
  · simp
  · rintro ⟨hp, ha⟩
    exact h ⟨hp, by simpa [isAligned] using ha⟩

/-- The bits of a word made of four bytes. -/
theorem getLsbD_wordOfBytes (b0 b1 b2 b3 : Byte) (i : Nat) :
    (wordOfBytes b0 b1 b2 b3).getLsbD i =
      if i < 8 then b0.getLsbD i else if i < 16 then b1.getLsbD (i - 8)
      else if i < 24 then b2.getLsbD (i - 16) else b3.getLsbD (i - 24) := by
  show BitVec.getLsbD (w := 8 + 8 + 8 + 8) (b3 ++ b2 ++ b1 ++ b0) i = _
  simp only [BitVec.getLsbD_append]
  split_ifs <;> first | rfl | omega

/-- The word read at an address holds the four bytes there. -/
theorem wordAt_bytesAt (s : State) (a : Word) : WordAt s a (s.bytesAt a .word) := by
  intro k hk
  apply BitVec.eq_of_getLsbD_eq
  intro i hi
  simp only [BitVec.getLsbD_extractLsb', hi, decide_true, Bool.true_and, State.bytesAt, getLsbD_wordOfBytes]
  obtain rfl | rfl | rfl | rfl : k = 0 ∨ k = 1 ∨ k = 2 ∨ k = 3 := by omega
  · simp [hi]
  · simp [show 8 + i < 16 by omega]
  · simp [show ¬ 16 + i < 16 by omega, show ¬ 16 + i < 8 by omega, show 16 + i < 24 by omega]
  · simp [show ¬ 24 + i < 16 by omega, show ¬ 24 + i < 8 by omega]

/-- A word is determined by its four bytes. -/
theorem wordAt_unique {s : State} {a v w : Word} (hv : WordAt s a v) (hw : WordAt s a w) : v = w := by
  apply BitVec.eq_of_getLsbD_eq
  intro i hi
  have h := (hv (i / 8) (by omega)).trans (hw (i / 8) (by omega)).symm
  have := congrArg (fun b => b.getLsbD (i % 8)) h
  have e : 8 * (i / 8) + i % 8 = i := Nat.div_add_mod i 8
  simpa [Nat.mod_lt, e] using this

/-! ### Fetch and decode -/

theorem fetch_misaligned {s : State} (h : s.pc.toNat % 4 ≠ 0) :
    s.fetch = .error (.instructionAddressMisaligned .fetch s.pc) := by
  simp [State.fetch, isAligned, h]

theorem fetch_unmapped {s : State} (h : s.pc.toNat % 4 = 0) (hm : ¬ MappedAccess s s.pc 4) :
    s.fetch = .error (.memoryAccessError .fetch s.pc) := by
  have hm' : s.allMapped s.pc 4 = false := by rwa [← Bool.not_eq_true, allMapped_iff]
  simp [State.fetch, isAligned, h, hm']

theorem fetch_ok {s : State} (h : s.pc.toNat % 4 = 0) (hm : MappedAccess s s.pc 4) :
    s.fetch = .ok (s.bytesAt s.pc .word) := by
  simp [State.fetch, isAligned, h, allMapped_iff.2 hm]

theorem decodeStage_ok {w : Word} {i : Instr} (h : decode w = .ok i) : decodeStage w = .ok i := by
  simp [decodeStage, h]

theorem decodeStage_error {w : Word} (h : IsDecodeError w) : decodeStage w = .error (.decodeError w) := by
  obtain ⟨r, h⟩ := h
  simp [decodeStage, h]

/-! ### The ways an instruction ends -/

/-- Every commit retires an instruction, whatever the content of its trace record. -/
theorem retired_commit (s : State) (e : Effect) : Retired s (s.commit e) := ⟨rfl, _, rfl⟩

/-- Retiring with one register write. -/
theorem retireReg_writes {i : Instr} {s : State} {rd : RegIdx} {v v' next : Word} (h : exec i s = s.retireReg rd v)
    (hv : v = v') (hn : next = s.pc + 4) : WritesRegister i s rd v' next := by
  subst hv hn
  refine ⟨s.commit (s.writesReg rd v), h, ?_, fun r hr => ?_, rfl, retired_commit .., fun a => ?_, ⟨rfl, rfl⟩, rfl, rfl⟩
  · rw [readReg_write (s := s) (rd := rd) (v := v) rfl, if_pos rfl]
  · rw [readReg_write (s := s) (rd := rd) (v := v) rfl, if_neg hr]
  · exact byteAt_congr rfl a

/-- A transfer to an aligned target. -/
theorem transfer_aligned {s : State} {kind : TransferKind} {target : Word} {rw : Option (RegIdx × Word)}
    (h : target.toNat % 4 = 0) : s.transfer kind target rw = .next (s.commit { regWrite := rw, nextPc := target }) := by
  simp [State.transfer, isAligned, h]

/-- A transfer to a target that is not a multiple of 4. -/
theorem transfer_misaligned {s : State} {kind : TransferKind} {target : Word} {rw : Option (RegIdx × Word)}
    (h : target.toNat % 4 ≠ 0) :
    s.transfer kind target rw = .next (s.raise (.instructionAddressMisaligned kind target)) := by
  simp [State.transfer, isAligned, h]

/-- A load that raises no error. -/
theorem load_ok {s : State} {a : Word} {w : Width} {ext : Word → Word} {rd : RegIdx}
    (h : ¬ MisalignedUnderFault s a w.bytes) (hm : MappedAccess s a w.bytes) :
    s.load a w ext rd = s.retireReg rd (ext (s.bytesAt a w)) := by
  simp [State.load, State.memRead, accessError_none h hm]

/-- A load that raises an error. -/
theorem load_error {s : State} {a : Word} {w : Width} {ext : Word → Word} {rd : RegIdx} {e : ErrorKind}
    (h : s.accessError .load a w.bytes = some e) : s.load a w ext rd = .next (s.raise e) := by
  simp [State.load, State.memRead, h]

/-- A store that raises no error. -/
theorem store_ok {s : State} {a v : Word} {w : Width}
    (h : ¬ MisalignedUnderFault s a w.bytes) (hm : MappedAccess s a w.bytes) :
    s.store a w v = .next (s.commit { memWrite := some ⟨a, w, v⟩, nextPc := s.nextPc }) := by
  simp [State.store, accessError_none h hm]

/-- A store that raises an error. -/
theorem store_error {s : State} {a v : Word} {w : Width} {e : ErrorKind}
    (h : s.accessError .store a w.bytes = some e) : s.store a w v = .next (s.raise e) := by
  simp [State.store, h]

/-- What a committed store does. -/
theorem store_stores {i : Instr} {s : State} {a v : Word} {w : Width}
    (h : exec i s = .next (s.commit { memWrite := some ⟨a, w, v⟩, nextPc := s.nextPc })) :
    StoresBytes i s a w.bytes v :=
  ⟨_, h, fun _ hk => byteAt_written rfl hk, byteAt_not_written rfl, readReg_congr rfl, rfl, retired_commit ..,
    ⟨rfl, rfl⟩, rfl, rfl⟩

/-! ### The step -/

theorem step_halted {s : State} (h : s.status ≠ .running) : step s = .fault .sessionHalted := by
  unfold step
  split <;> simp_all

theorem step_fetch_error {s : State} {e : ErrorKind} (h : s.status = .running) (hf : s.fetch = .error e) :
    step s = .next (s.raise e) := by
  simp [step, h, hf]

theorem step_decode_error {s : State} {w : Word} (h : s.status = .running) (hf : s.fetch = .ok w)
    (hd : IsDecodeError w) : step s = .next (s.raise (.decodeError w)) := by
  simp [step, h, hf, decodeStage_error hd]

theorem step_exec {s : State} {w : Word} {i : Instr} (h : s.status = .running) (hf : s.fetch = .ok w)
    (hd : decode w = .ok i) : step s = exec i s := by
  simp [step, h, hf, decodeStage_ok hd]

/-- Every way a step can answer a next state: it raised an error in the fetch or decode stage, or it is `exec` of the
instruction decoded from the four bytes at the pc. -/
theorem step_cases {s t : State} (h : step s = .next t) :
    s.status = .running ∧ ((∃ e, t = s.raise e) ∨
      (∃ w i, s.pc.toNat % 4 = 0 ∧ MappedAccess s s.pc 4 ∧ WordAt s s.pc w ∧ decode w = .ok i ∧ exec i s = .next t)) := by
  by_cases hr : s.status = .running
  · refine ⟨hr, ?_⟩
    by_cases hp : s.pc.toNat % 4 = 0
    · by_cases hm : MappedAccess s s.pc 4
      · rcases hd : decode (s.bytesAt s.pc .word) with r | i
        · rw [step_decode_error hr (fetch_ok hp hm) ⟨r, hd⟩] at h
          exact .inl ⟨_, (Host.Outcome.next.inj h).symm⟩
        · rw [step_exec hr (fetch_ok hp hm) hd] at h
          exact .inr ⟨_, i, hp, hm, wordAt_bytesAt s s.pc, hd, h⟩
      · rw [step_fetch_error hr (fetch_unmapped hp hm)] at h
        exact .inl ⟨_, (Host.Outcome.next.inj h).symm⟩
    · rw [step_fetch_error hr (fetch_misaligned hp)] at h
      exact .inl ⟨_, (Host.Outcome.next.inj h).symm⟩
  · rw [step_halted hr] at h
    cases h

end Sys2Proof.Machine
end

