-- ==== Sys2Proof/Laws/Exec.lean ====
section
/-! SUPPORT. What an instruction can do, said once for all of them. -/

namespace Sys2Proof.Machine

/-- What the effect of an instruction that retires can be: it stores to the instruction's footprint and nowhere else,
only ECALL touches the console or halts, only the transfers of control choose the next pc, and a pc chosen is aligned. -/
structure Allowed (i : Instr) (s : State) (e : Effect) : Prop where
  store : e.memWrite.map (fun st => (st.addr, st.width.bytes)) = storeFootprint s i
  console : i ≠ .ecall → e.consoleRead = false ∧ e.consoleWrite = none ∧ e.halt = false
  next : transfersControl i = false → e.nextPc = s.pc + 4
  pc : e.nextPc = s.pc + 4 ∨ e.nextPc.toNat % 4 = 0

/-! ### Every way an instruction can answer a next state -/

theorem retireReg_allowed {i : Instr} {s t : State} {rd : RegIdx} {v : Word} (hs : storeFootprint s i = none)
    (h : s.retireReg rd v = .next t) : ∃ e, t = s.commit e ∧ Allowed i s e :=
  ⟨_, (Host.Outcome.next.inj h).symm, hs.symm, fun _ => ⟨rfl, rfl, rfl⟩, fun _ => rfl, .inl rfl⟩

theorem load_allowed {i : Instr} {s t : State} {a : Word} {w : Width} {ext : Word → Word} {rd : RegIdx}
    (hs : storeFootprint s i = none) (h : s.load a w ext rd = .next t) :
    (∃ e, t = s.raise e) ∨ ∃ e, t = s.commit e ∧ Allowed i s e := by
  unfold State.load at h
  split at h
  · exact .inl ⟨_, (Host.Outcome.next.inj h).symm⟩
  · exact .inr (retireReg_allowed hs h)

theorem store_allowed {i : Instr} {s t : State} {a v : Word} {w : Width}
    (hs : storeFootprint s i = some (a, w.bytes)) (h : s.store a w v = .next t) :
    (∃ e, t = s.raise e) ∨ ∃ e, t = s.commit e ∧ Allowed i s e := by
  unfold State.store at h
  split at h
  · exact .inl ⟨_, (Host.Outcome.next.inj h).symm⟩
  · exact .inr ⟨_, (Host.Outcome.next.inj h).symm, hs.symm, fun _ => ⟨rfl, rfl, rfl⟩, fun _ => rfl, .inl rfl⟩

theorem transfer_allowed {i : Instr} {s t : State} {kind : TransferKind} {target : Word}
    {rw : Option (RegIdx × Word)} (hs : storeFootprint s i = none) (ht : transfersControl i = true)
    (h : s.transfer kind target rw = .next t) :
    (∃ e, t = s.raise e) ∨ ∃ e, t = s.commit e ∧ Allowed i s e := by
  unfold State.transfer at h
  split at h
  · rename_i ha
    exact .inr ⟨_, (Host.Outcome.next.inj h).symm, hs.symm, fun _ => ⟨rfl, rfl, rfl⟩, by simp [ht],
      .inr (isAligned_iff.1 ha)⟩
  · exact .inl ⟨_, (Host.Outcome.next.inj h).symm⟩

theorem branchOn_allowed {i : Instr} {s t : State} {c : Bool} {imm : Word} (hs : storeFootprint s i = none)
    (ht : transfersControl i = true) (h : branchOn c imm s = .next t) :
    (∃ e, t = s.raise e) ∨ ∃ e, t = s.commit e ∧ Allowed i s e := by
  unfold branchOn at h
  split at h
  · exact transfer_allowed hs ht h
  · exact .inr ⟨_, (Host.Outcome.next.inj h).symm, hs.symm, fun _ => ⟨rfl, rfl, rfl⟩, by simp [ht], .inl rfl⟩

theorem ecall_allowed {s t : State} (h : execEcall s = .next t) :
    (∃ e, t = s.raise e) ∨ ∃ e, t = s.commit e ∧ Allowed .ecall s e := by
  unfold execEcall State.consoleReadCall State.consoleWriteCall State.exitCall at h
  split_ifs at h
  · split at h
    · cases h
    · exact .inr ⟨_, (Host.Outcome.next.inj h).symm, rfl, fun hn => (hn rfl).elim, fun _ => rfl, .inl rfl⟩
  · exact .inr ⟨_, (Host.Outcome.next.inj h).symm, rfl, fun hn => (hn rfl).elim, fun _ => rfl, .inl rfl⟩
  · exact .inr ⟨_, (Host.Outcome.next.inj h).symm, rfl, fun hn => (hn rfl).elim, fun _ => rfl, .inl rfl⟩
  · exact .inl ⟨_, (Host.Outcome.next.inj h).symm⟩

/-- Everything an instruction can do: raise an error, or commit one effect of the shape its form allows. -/
theorem exec_cases {i : Instr} {s t : State} (h : exec i s = .next t) :
    (∃ e, t = s.raise e) ∨ ∃ e, t = s.commit e ∧ Allowed i s e := by
  cases i
  case jal => exact transfer_allowed rfl rfl h
  case jalr => exact transfer_allowed rfl rfl h
  case ecall => exact ecall_allowed h
  case lb | lh | lw | lbu | lhu => exact load_allowed rfl h
  case sb | sh | sw => exact store_allowed rfl h
  case beq | bne | blt | bge | bltu | bgeu => exact branchOn_allowed rfl rfl h
  all_goals exact .inr (retireReg_allowed rfl h)

/-- No instruction is refused. -/
theorem exec_not_refused (i : Instr) (s : State) (r : Refusal) : exec i s ≠ .refused r := by
  have hl a w ext rd : s.load a w ext rd ≠ .refused r := by unfold State.load; split <;> nofun
  have hs a w v : s.store a w v ≠ .refused r := by unfold State.store; split <;> nofun
  have ht k a w : s.transfer k a w ≠ .refused r := by unfold State.transfer; split <;> nofun
  have hb c imm : branchOn c imm s ≠ .refused r := by
    unfold branchOn; split
    · exact ht _ _ _
    · nofun
  have he : execEcall s ≠ .refused r := by
    unfold execEcall State.consoleReadCall State.consoleWriteCall State.exitCall
    split_ifs
    · split <;> nofun
    all_goals nofun
  cases i
  case jal | jalr => exact ht _ _ _
  case ecall => exact he
  case lb | lh | lw | lbu | lhu => exact hl _ _ _ _
  case sb | sh | sw => exact hs _ _ _
  case beq | bne | blt | bge | bltu | bgeu => exact hb _ _
  all_goals nofun

/-- No effect changes the stored x0. -/
theorem regsAfter_zero_slot (e : Effect) (regs : Vector Word 32) : (e.regsAfter regs)[0] = regs[0] := by
  rcases e with ⟨_ | ⟨r, v⟩, _, _, _, _, _⟩
  · rfl
  · exact write_zero_slot regs r v

/-! ### The counter and the trace -/

/-- A state with another counter and another trace. -/
def State.recount (s : State) (n : Counter) (tr : Option (List TraceRecord)) : State :=
  { s with instret := n, trace := tr }

/-- The same answer up to the counter and the trace. -/
def SameButCount : Result → Result → Prop
  | .next t, .next t' => t' = t.recount t'.instret t'.trace
  | .fault f, .fault f' => f = f'
  | .refused r, .refused r' => r = r'
  | _, _ => False

theorem sameButCount_next {t t' : State} (h : t' = t.recount t'.instret t'.trace) :
    SameButCount (.next t) (.next t') := h

/-- What an instruction does is the same up to the counter and the trace. -/
theorem exec_recount (i : Instr) (s : State) (n : Counter) (tr : Option (List TraceRecord)) :
    SameButCount (exec i s) (exec i (s.recount n tr)) := by
  have hr rd v : SameButCount (s.retireReg rd v) ((s.recount n tr).retireReg rd v) := rfl
  have ht k a w : SameButCount (s.transfer k a w) ((s.recount n tr).transfer k a w) := by
    unfold State.transfer; split <;> exact sameButCount_next rfl
  have hl a w ext rd : SameButCount (s.load a w ext rd) ((s.recount n tr).load a w ext rd) := by
    have : (s.recount n tr).memRead a w = s.memRead a w := rfl
    unfold State.load; rw [this]; split
    · exact sameButCount_next rfl
    · exact hr _ _
  have hs a w v : SameButCount (s.store a w v) ((s.recount n tr).store a w v) := by
    have : (s.recount n tr).accessError .store a w.bytes = s.accessError .store a w.bytes := rfl
    unfold State.store; rw [this]; split <;> exact sameButCount_next rfl
  have hb c imm : SameButCount (branchOn c imm s) (branchOn c imm (s.recount n tr)) := by
    unfold branchOn; split
    · exact ht _ _ _
    · exact sameButCount_next rfl
  have he : SameButCount (execEcall s) (execEcall (s.recount n tr)) := by
    have h1 : (s.recount n tr).readReg a7 = s.readReg a7 := rfl
    have h2 : (s.recount n tr).consoleIn = s.consoleIn := rfl
    unfold execEcall; rw [h1]
    split_ifs
    · unfold State.consoleReadCall; rw [h2]; split
      · rfl
      · exact sameButCount_next rfl
    all_goals exact sameButCount_next rfl
  cases i
  case jal | jalr => exact ht _ _ _
  case ecall => exact he
  case lb | lh | lw | lbu | lhu => exact hl _ _ _ _
  case sb | sh | sw => exact hs _ _ _
  case beq | bne | blt | bge | bltu | bgeu => exact hb _ _
  all_goals exact hr _ _

/-! ### Results in the statements' terms -/

/-- A jump to an aligned target. -/
theorem transfer_links {i : Instr} {s : State} {kind : TransferKind} {rd : RegIdx} {v target : Word}
    (h : exec i s = s.transfer kind target (some (rd, v))) (ht : target.toNat % 4 = 0) :
    WritesRegister i s rd v target := by
  rw [transfer_aligned ht] at h
  refine ⟨_, h, ?_, fun r hr => ?_, rfl, retired_commit .., fun a => ?_, ⟨rfl, rfl⟩, rfl, rfl⟩
  · rw [readReg_write (s := s) (rd := rd) (v := v) rfl, if_pos rfl]
  · rw [readReg_write (s := s) (rd := rd) (v := v) rfl, if_neg hr]
  · exact byteAt_congr rfl a

/-- A branch decided by a Boolean that says the proposition. -/
theorem branchOn_branches {i : Instr} {s : State} {c : Bool} {imm : Word} {p : Prop} (h : exec i s = branchOn c imm s)
    (hc : c = true ↔ p) : BranchesWhen i s imm p := by
  refine ⟨fun hp ha => ?_, fun hp ha => ?_, fun hp => ?_⟩
  · rw [branchOn, if_pos (hc.2 hp)] at h
    exact ⟨_, h.trans (transfer_aligned ha), readReg_congr rfl, rfl, retired_commit .., byteAt_congr rfl, ⟨rfl, rfl⟩, rfl,
      rfl⟩
  · rw [branchOn, if_pos (hc.2 hp)] at h
    exact h.trans (transfer_misaligned ha)
  · rw [branchOn, if_neg (mt hc.1 hp)] at h
    exact ⟨_, h, readReg_congr rfl, rfl, retired_commit .., byteAt_congr rfl, ⟨rfl, rfl⟩, rfl,
      rfl⟩

/-- A load that raises no error. -/
theorem load_writes {i : Instr} {s : State} {a : Word} {w : Width} {ext : Word → Word} {rd : RegIdx} {v next : Word}
    (h : exec i s = s.load a w ext rd) (h1 : ¬ MisalignedUnderFault s a w.bytes) (h2 : MappedAccess s a w.bytes)
    (hv : ext (s.bytesAt a w) = v) (hn : next = s.pc + 4) : WritesRegister i s rd v next :=
  retireReg_writes (h.trans (load_ok h1 h2)) hv hn

/-- A load that raises an error. -/
theorem load_halts {i : Instr} {s : State} {a : Word} {w : Width} {ext : Word → Word} {rd : RegIdx} {e : ErrorKind}
    (h : exec i s = s.load a w ext rd) (he : s.accessError .load a w.bytes = some e) : HaltsWith i s e :=
  h.trans (load_error he)

/-- A store that raises an error. -/
theorem store_halts {i : Instr} {s : State} {a v : Word} {w : Width} {e : ErrorKind}
    (h : exec i s = s.store a w v) (he : s.accessError .store a w.bytes = some e) : HaltsWith i s e :=
  h.trans (store_error he)

/-- A store that retired raised no error and is its commit. -/
theorem store_retired {s t : State} {a v : Word} {w : Width} (h : s.store a w v = .next t)
    (ht : t.instret ≠ s.instret) :
    (¬ MisalignedUnderFault s a w.bytes) ∧ MappedAccess s a w.bytes ∧
      t = s.commit { memWrite := some ⟨a, w, v⟩, nextPc := s.nextPc } := by
  by_cases hm : MisalignedUnderFault s a w.bytes
  · rw [store_error (accessError_misaligned hm)] at h; cases h; exact (ht rfl).elim
  · by_cases hp : MappedAccess s a w.bytes
    · rw [store_ok hm hp] at h; exact ⟨hm, hp, (Host.Outcome.next.inj h).symm⟩
    · rw [store_error (accessError_unmapped hm hp)] at h; cases h; exact (ht rfl).elim

theorem mappedAccess_one {s : State} {a : Word} : MappedAccess s a 1 ↔ MappedByte s a := by
  simp [MappedAccess]

theorem not_misaligned_one {s : State} {a : Word} : ¬ MisalignedUnderFault s a 1 := by
  simp [MisalignedUnderFault, Nat.mod_one]

/-! ### Placing a word -/

theorem toNat_alignDown (a : Word) : (a - BitVec.ofNat 32 (a.toNat % 4)).toNat % 4 = 0 := by
  rw [BitVec.toNat_sub]; simp; omega

/-- A placed word is the word the next fetch answers. -/
theorem fetch_placeWord (s : State) (w : Word) : (s.placeWord w).fetch = .ok w := by
  have hp : (s.placeWord w).pc.toNat % 4 = 0 := by
    show (if isAligned s.pc 4 then s.pc else s.pc - BitVec.ofNat 32 (s.pc.toNat % 4)).toNat % 4 = 0
    split
    · rename_i h; exact isAligned_iff.1 h
    · exact toNat_alignDown s.pc
  have hm : MappedAccess (s.placeWord w) (s.placeWord w).pc 4 := by
    have hpar : (s.placeWord w).params =
      if s.allMapped (s.placeWord w).pc 4 then s.params else withWordMapped s.params (s.placeWord w).pc := rfl
    intro k hk
    unfold MappedByte
    rw [hpar]
    split
    · rename_i h; exact allMapped_iff.1 h k hk
    · refine ⟨_, List.mem_cons_self .., ?_⟩
      simp [BitVec.toNat_add]; omega
  rw [fetch_ok hp hm]
  congr 1
  exact wordAt_unique (wordAt_bytesAt _ _) fun k hk => (byteAt_written (s := s) (w := .word) rfl hk).symm

end Sys2Proof.Machine
end

