-- ==== Sys2Proof/Laws/Forms.lean ====
section
/-! SUPPORT. The drawn formats are the encoder's. -/

namespace Sys2Proof

theorem shiftForm_eq (f7 : BitVec 7) (sh : BitVec 5) (rs1 : RegIdx) (f3 : BitVec 3) (rd : RegIdx) (op : BitVec 7) :
    shiftForm f7 sh rs1 f3 rd op = encodeShift f7 sh rs1 f3 rd op := rfl

theorem iForm_eq (imm : BitVec 12) (rs1 : RegIdx) (f3 : BitVec 3) (rd : RegIdx) (op : BitVec 7) :
    iForm imm rs1 f3 rd op = encodeI (imm.signExtend 32) rs1 f3 rd op := by
  rw [encodeI, extract_signExtend _ 0 12 (by decide) (by decide), BitVec.extractLsb'_eq_self]; rfl

theorem sForm_eq (imm : BitVec 12) (rs2 rs1 : RegIdx) (f3 : BitVec 3) (op : BitVec 7) :
    sForm imm rs2 rs1 f3 op = encodeS (imm.signExtend 32) rs2 rs1 f3 op := by
  rw [encodeS, extract_signExtend _ 5 7 (by decide) (by decide), extract_signExtend _ 0 5 (by decide) (by decide)]; rfl

theorem bForm_eq (imm : BitVec 13) (rs2 rs1 : RegIdx) (f3 : BitVec 3) (op : BitVec 7) :
    bForm imm rs2 rs1 f3 op = encodeB (imm.signExtend 32) rs2 rs1 f3 op := by
  simp (disch := decide) only [encodeB, extract_signExtend]; rfl

theorem uForm_eq (imm20 : BitVec 20) (rd : RegIdx) (op : BitVec 7) :
    uForm imm20 rd op = encodeU (imm20 ++ 0#12) rd op := by
  have : BitVec.extractLsb' (n := 32) 12 20 (imm20 ++ 0#12) = imm20 :=
    BitVec.extractLsb'_append_eq_left (a := imm20) (b := 0#12)
  rw [encodeU, this]; rfl

theorem jForm_eq (imm : BitVec 21) (rd : RegIdx) (op : BitVec 7) :
    jForm imm rd op = encodeJ (imm.signExtend 32) rd op := by
  simp (disch := decide) only [encodeJ, extract_signExtend]; rfl

end Sys2Proof
end

