-- ==== Sys2Proof/Laws/PerInstr.lean ====
section
/-! SUPPORT. Statements about every instruction as syntax, one lemma per constructor. -/

namespace Sys2Proof.Laws.EncodesRow

/-- The word `encode` gives an instruction matches the row of `opcode_table.json` that bears its mnemonic
(30_encoding.md R98, R120). -/
def Statement (i : Instr) : Prop :=
  ∃ row ∈ opcodeTable, row.1 = i.mnemonic ∧ rowMatches (encode i) row = true

theorem lui (rd : RegIdx) (imm : Word) : Statement (.lui rd imm) :=
  ⟨("LUI", 0x00000037, 0x0000007F), by decide, rfl, by simp [rowMatches, encode, mask_opcode]⟩

theorem auipc (rd : RegIdx) (imm : Word) : Statement (.auipc rd imm) :=
  ⟨("AUIPC", 0x00000017, 0x0000007F), by decide, rfl, by simp [rowMatches, encode, mask_opcode]⟩

theorem jal (rd : RegIdx) (imm : Word) : Statement (.jal rd imm) :=
  ⟨("JAL", 0x0000006F, 0x0000007F), by decide, rfl, by simp [rowMatches, encode, mask_opcode]⟩

theorem jalr (rd rs1 : RegIdx) (imm : Word) : Statement (.jalr rd rs1 imm) :=
  ⟨("JALR", 0x00000067, 0x0000707F), by decide, rfl, by simp [rowMatches, encode, mask_funct3]⟩

theorem beq (rs1 rs2 : RegIdx) (imm : Word) : Statement (.beq rs1 rs2 imm) :=
  ⟨("BEQ", 0x00000063, 0x0000707F), by decide, rfl, by simp [rowMatches, encode, mask_funct3]⟩

theorem bne (rs1 rs2 : RegIdx) (imm : Word) : Statement (.bne rs1 rs2 imm) :=
  ⟨("BNE", 0x00001063, 0x0000707F), by decide, rfl, by simp [rowMatches, encode, mask_funct3]⟩

theorem blt (rs1 rs2 : RegIdx) (imm : Word) : Statement (.blt rs1 rs2 imm) :=
  ⟨("BLT", 0x00004063, 0x0000707F), by decide, rfl, by simp [rowMatches, encode, mask_funct3]⟩

theorem bge (rs1 rs2 : RegIdx) (imm : Word) : Statement (.bge rs1 rs2 imm) :=
  ⟨("BGE", 0x00005063, 0x0000707F), by decide, rfl, by simp [rowMatches, encode, mask_funct3]⟩

theorem bltu (rs1 rs2 : RegIdx) (imm : Word) : Statement (.bltu rs1 rs2 imm) :=
  ⟨("BLTU", 0x00006063, 0x0000707F), by decide, rfl, by simp [rowMatches, encode, mask_funct3]⟩

theorem bgeu (rs1 rs2 : RegIdx) (imm : Word) : Statement (.bgeu rs1 rs2 imm) :=
  ⟨("BGEU", 0x00007063, 0x0000707F), by decide, rfl, by simp [rowMatches, encode, mask_funct3]⟩

theorem lb (rd rs1 : RegIdx) (imm : Word) : Statement (.lb rd rs1 imm) :=
  ⟨("LB", 0x00000003, 0x0000707F), by decide, rfl, by simp [rowMatches, encode, mask_funct3]⟩

theorem lh (rd rs1 : RegIdx) (imm : Word) : Statement (.lh rd rs1 imm) :=
  ⟨("LH", 0x00001003, 0x0000707F), by decide, rfl, by simp [rowMatches, encode, mask_funct3]⟩

theorem lw (rd rs1 : RegIdx) (imm : Word) : Statement (.lw rd rs1 imm) :=
  ⟨("LW", 0x00002003, 0x0000707F), by decide, rfl, by simp [rowMatches, encode, mask_funct3]⟩

theorem lbu (rd rs1 : RegIdx) (imm : Word) : Statement (.lbu rd rs1 imm) :=
  ⟨("LBU", 0x00004003, 0x0000707F), by decide, rfl, by simp [rowMatches, encode, mask_funct3]⟩

theorem lhu (rd rs1 : RegIdx) (imm : Word) : Statement (.lhu rd rs1 imm) :=
  ⟨("LHU", 0x00005003, 0x0000707F), by decide, rfl, by simp [rowMatches, encode, mask_funct3]⟩

theorem sb (rs1 rs2 : RegIdx) (imm : Word) : Statement (.sb rs1 rs2 imm) :=
  ⟨("SB", 0x00000023, 0x0000707F), by decide, rfl, by simp [rowMatches, encode, mask_funct3]⟩

theorem sh (rs1 rs2 : RegIdx) (imm : Word) : Statement (.sh rs1 rs2 imm) :=
  ⟨("SH", 0x00001023, 0x0000707F), by decide, rfl, by simp [rowMatches, encode, mask_funct3]⟩

theorem sw (rs1 rs2 : RegIdx) (imm : Word) : Statement (.sw rs1 rs2 imm) :=
  ⟨("SW", 0x00002023, 0x0000707F), by decide, rfl, by simp [rowMatches, encode, mask_funct3]⟩

theorem addi (rd rs1 : RegIdx) (imm : Word) : Statement (.addi rd rs1 imm) :=
  ⟨("ADDI", 0x00000013, 0x0000707F), by decide, rfl, by simp [rowMatches, encode, mask_funct3]⟩

theorem slti (rd rs1 : RegIdx) (imm : Word) : Statement (.slti rd rs1 imm) :=
  ⟨("SLTI", 0x00002013, 0x0000707F), by decide, rfl, by simp [rowMatches, encode, mask_funct3]⟩

theorem sltiu (rd rs1 : RegIdx) (imm : Word) : Statement (.sltiu rd rs1 imm) :=
  ⟨("SLTIU", 0x00003013, 0x0000707F), by decide, rfl, by simp [rowMatches, encode, mask_funct3]⟩

theorem xori (rd rs1 : RegIdx) (imm : Word) : Statement (.xori rd rs1 imm) :=
  ⟨("XORI", 0x00004013, 0x0000707F), by decide, rfl, by simp [rowMatches, encode, mask_funct3]⟩

theorem ori (rd rs1 : RegIdx) (imm : Word) : Statement (.ori rd rs1 imm) :=
  ⟨("ORI", 0x00006013, 0x0000707F), by decide, rfl, by simp [rowMatches, encode, mask_funct3]⟩

theorem andi (rd rs1 : RegIdx) (imm : Word) : Statement (.andi rd rs1 imm) :=
  ⟨("ANDI", 0x00007013, 0x0000707F), by decide, rfl, by simp [rowMatches, encode, mask_funct3]⟩

theorem slli (rd rs1 : RegIdx) (shamt : BitVec 5) : Statement (.slli rd rs1 shamt) :=
  ⟨("SLLI", 0x00001013, 0xFE00707F), by decide, rfl, by simp [rowMatches, encode, mask_funct7]⟩

theorem srli (rd rs1 : RegIdx) (shamt : BitVec 5) : Statement (.srli rd rs1 shamt) :=
  ⟨("SRLI", 0x00005013, 0xFE00707F), by decide, rfl, by simp [rowMatches, encode, mask_funct7]⟩

theorem srai (rd rs1 : RegIdx) (shamt : BitVec 5) : Statement (.srai rd rs1 shamt) :=
  ⟨("SRAI", 0x40005013, 0xFE00707F), by decide, rfl, by simp [rowMatches, encode, mask_funct7]⟩

theorem add (rd rs1 rs2 : RegIdx) : Statement (.add rd rs1 rs2) :=
  ⟨("ADD", 0x00000033, 0xFE00707F), by decide, rfl, by simp [rowMatches, encode, mask_funct7]⟩

theorem sub (rd rs1 rs2 : RegIdx) : Statement (.sub rd rs1 rs2) :=
  ⟨("SUB", 0x40000033, 0xFE00707F), by decide, rfl, by simp [rowMatches, encode, mask_funct7]⟩

theorem sll (rd rs1 rs2 : RegIdx) : Statement (.sll rd rs1 rs2) :=
  ⟨("SLL", 0x00001033, 0xFE00707F), by decide, rfl, by simp [rowMatches, encode, mask_funct7]⟩

theorem slt (rd rs1 rs2 : RegIdx) : Statement (.slt rd rs1 rs2) :=
  ⟨("SLT", 0x00002033, 0xFE00707F), by decide, rfl, by simp [rowMatches, encode, mask_funct7]⟩

theorem sltu (rd rs1 rs2 : RegIdx) : Statement (.sltu rd rs1 rs2) :=
  ⟨("SLTU", 0x00003033, 0xFE00707F), by decide, rfl, by simp [rowMatches, encode, mask_funct7]⟩

theorem xor (rd rs1 rs2 : RegIdx) : Statement (.xor rd rs1 rs2) :=
  ⟨("XOR", 0x00004033, 0xFE00707F), by decide, rfl, by simp [rowMatches, encode, mask_funct7]⟩

theorem srl (rd rs1 rs2 : RegIdx) : Statement (.srl rd rs1 rs2) :=
  ⟨("SRL", 0x00005033, 0xFE00707F), by decide, rfl, by simp [rowMatches, encode, mask_funct7]⟩

theorem sra (rd rs1 rs2 : RegIdx) : Statement (.sra rd rs1 rs2) :=
  ⟨("SRA", 0x40005033, 0xFE00707F), by decide, rfl, by simp [rowMatches, encode, mask_funct7]⟩

theorem or (rd rs1 rs2 : RegIdx) : Statement (.or rd rs1 rs2) :=
  ⟨("OR", 0x00006033, 0xFE00707F), by decide, rfl, by simp [rowMatches, encode, mask_funct7]⟩

theorem and (rd rs1 rs2 : RegIdx) : Statement (.and rd rs1 rs2) :=
  ⟨("AND", 0x00007033, 0xFE00707F), by decide, rfl, by simp [rowMatches, encode, mask_funct7]⟩

theorem mul (rd rs1 rs2 : RegIdx) : Statement (.mul rd rs1 rs2) :=
  ⟨("MUL", 0x02000033, 0xFE00707F), by decide, rfl, by simp [rowMatches, encode, mask_funct7]⟩

theorem mulh (rd rs1 rs2 : RegIdx) : Statement (.mulh rd rs1 rs2) :=
  ⟨("MULH", 0x02001033, 0xFE00707F), by decide, rfl, by simp [rowMatches, encode, mask_funct7]⟩

theorem mulhsu (rd rs1 rs2 : RegIdx) : Statement (.mulhsu rd rs1 rs2) :=
  ⟨("MULHSU", 0x02002033, 0xFE00707F), by decide, rfl, by simp [rowMatches, encode, mask_funct7]⟩

theorem mulhu (rd rs1 rs2 : RegIdx) : Statement (.mulhu rd rs1 rs2) :=
  ⟨("MULHU", 0x02003033, 0xFE00707F), by decide, rfl, by simp [rowMatches, encode, mask_funct7]⟩

theorem div (rd rs1 rs2 : RegIdx) : Statement (.div rd rs1 rs2) :=
  ⟨("DIV", 0x02004033, 0xFE00707F), by decide, rfl, by simp [rowMatches, encode, mask_funct7]⟩

theorem divu (rd rs1 rs2 : RegIdx) : Statement (.divu rd rs1 rs2) :=
  ⟨("DIVU", 0x02005033, 0xFE00707F), by decide, rfl, by simp [rowMatches, encode, mask_funct7]⟩

theorem rem (rd rs1 rs2 : RegIdx) : Statement (.rem rd rs1 rs2) :=
  ⟨("REM", 0x02006033, 0xFE00707F), by decide, rfl, by simp [rowMatches, encode, mask_funct7]⟩

theorem remu (rd rs1 rs2 : RegIdx) : Statement (.remu rd rs1 rs2) :=
  ⟨("REMU", 0x02007033, 0xFE00707F), by decide, rfl, by simp [rowMatches, encode, mask_funct7]⟩

theorem ecall : Statement .ecall :=
  ⟨("ECALL", 0x00000073, 0xFFFFFFFF), by decide, rfl, by decide⟩

end Sys2Proof.Laws.EncodesRow
end

