-- ==== Sys2Proof/Tests/Slice0.lean ====
section
/-! SUPPORT. Small tests, each from a vector of 95_test_vectors.md or from the encoding tables of 30_encoding.md, and for
each statement with hypotheses a witness that meets them. -/

namespace Sys2Proof.Tests

open Sys2Proof.Machine

/-! ### Helpers -/

/-- The next state of a result, if it is one. -/
def nx : Result → Option State
  | .next t => some t
  | .fault _ => none
  | .refused _ => none

/-- The four bytes of a word at an address. -/
def wordImage (a w : Word) : List (Word × Byte) :=
  [(a, byteOfWord w 0), (a + 1, byteOfWord w 1), (a + 2, byteOfWord w 2), (a + 3, byteOfWord w 3)]

/-- The state of the single-instruction vectors of 95_test_vectors.md: the word at pc, 0x000 to 0x3FF mapped, and the
registers and bytes listed. -/
def vecAt (pc w : Word) (regs : List (RegIdx × Word)) (bytes : List (Word × Byte) := [])
    (policy : MisalignedDataPolicy := .fault) (input : List Byte := []) : State :=
  let s := State.start pc { mapped := [{ base := 0, size := 0x400 }, { base := 0x1000, size := 4 },
    { base := 0xFFFFFFFC, size := 4 }], misaligned := policy } (bytes ++ wordImage pc w) input false
  { s with regs := regs.foldl (fun f p => RegFile.write f p.1 p.2) s.regs }

/-- `vecAt` at pc = 0x100. -/
def vec (w : Word) (regs : List (RegIdx × Word)) (bytes : List (Word × Byte) := [])
    (policy : MisalignedDataPolicy := .fault) (input : List Byte := []) : State := vecAt 0x100 w regs bytes policy input

/-- One register, the pc, the counter and the status after one step. -/
def see (r : RegIdx) (s : State) : Option (Word × Word × Counter × Status) :=
  (nx (step s)).map fun t => (t.readReg r, t.pc, t.instret, t.status)

/-- Some bytes of memory, the pc, the counter and the status after one step. -/
def seeMem (addrs : List Nat) (s : State) : Option (List (Option Byte) × Word × Counter × Status) :=
  (nx (step s)).map fun t => (addrs.map (Memory.read? t.mem), t.pc, t.instret, t.status)

/-! ### WellFormed refuses what no word stands for (30_encoding.md R84 to R88) -/

theorem test_wf_imm12_high : (Instr.addi 5 0 2048).wellFormed = false := by decide
theorem test_wf_imm12_low : (Instr.sw 6 5 0xFFFFF7FF).wellFormed = false := by decide
theorem test_wf_immB_high : (Instr.beq 1 2 4096).wellFormed = false := by decide
theorem test_wf_immB_low : (Instr.bgeu 1 2 0xFFFFEFFE).wellFormed = false := by decide
theorem test_wf_immB_odd : (Instr.bne 1 2 7).wellFormed = false := by decide
theorem test_wf_immJ_high : (Instr.jal 1 0x100000).wellFormed = false := by decide
theorem test_wf_immJ_low : (Instr.jal 1 0xFFEFFFFE).wellFormed = false := by decide
theorem test_wf_immJ_odd : (Instr.jal 1 9).wellFormed = false := by decide
theorem test_wf_immU : (Instr.lui 1 0xABCDE001).wellFormed = false := by decide
theorem test_wf_ok : (Instr.bge 0 0 0xFFFFF000).wellFormed = true := by decide

/-! ### Decoding: each constructor, from a word of 95_test_vectors.md or of the family file -/

theorem test_decode_lui : decodeTableWord 32 0xABCDE0B7 = some (.lui 1 0xABCDE000) := by decide
theorem test_decode_auipc : decodeTableWord 32 0xFFFFF297 = some (.auipc 5 0xFFFFF000) := by decide
theorem test_decode_jal : decodeTableWord 32 0xFF1FF06F = some (.jal 0 0xFFFFFFF0) := by decide
theorem test_decode_jalr : decodeTableWord 32 0x003302E7 = some (.jalr 5 6 3) := by decide
theorem test_decode_beq : decodeTableWord 32 0x00208863 = some (.beq 1 2 16) := by decide
theorem test_decode_bne : decodeTableWord 32 0xFE629CE3 = some (.bne 5 6 0xFFFFFFF8) := by decide
theorem test_decode_blt : decodeTableWord 32 0xFE62CCE3 = some (.blt 5 6 0xFFFFFFF8) := by decide
theorem test_decode_bge : decodeTableWord 32 0x80005063 = some (.bge 0 0 0xFFFFF000) := by decide
theorem test_decode_bltu : decodeTableWord 32 0x0020E663 = some (.bltu 1 2 12) := by decide
theorem test_decode_bgeu : decodeTableWord 32 0x0020F663 = some (.bgeu 1 2 12) := by decide
theorem test_decode_lb : decodeTableWord 32 0x00230283 = some (.lb 5 6 2) := by decide
theorem test_decode_lh : decodeTableWord 32 0x00131283 = some (.lh 5 6 1) := by decide
theorem test_decode_lw : decodeTableWord 32 0xFFC32283 = some (.lw 5 6 0xFFFFFFFC) := by decide
theorem test_decode_lbu : decodeTableWord 32 0x00034383 = some (.lbu 7 6 0) := by decide
theorem test_decode_lhu : decodeTableWord 32 0x00335283 = some (.lhu 5 6 3) := by decide
theorem test_decode_sb : decodeTableWord 32 0x001101A3 = some (.sb 2 1 3) := by decide
theorem test_decode_sh : decodeTableWord 32 0x005310A3 = some (.sh 6 5 1) := by decide
theorem test_decode_sw : decodeTableWord 32 0xFE032E23 = some (.sw 6 0 0xFFFFFFFC) := by decide
theorem test_decode_addi : decodeTableWord 32 0x80030293 = some (.addi 5 6 0xFFFFF800) := by decide
theorem test_decode_slti : decodeTableWord 32 0xFFF32293 = some (.slti 5 6 0xFFFFFFFF) := by decide
theorem test_decode_sltiu : decodeTableWord 32 0x00133293 = some (.sltiu 5 6 1) := by decide
theorem test_decode_xori : decodeTableWord 32 0xFFF34293 = some (.xori 5 6 0xFFFFFFFF) := by decide
theorem test_decode_ori : decodeTableWord 32 0x80036293 = some (.ori 5 6 0xFFFFF800) := by decide
theorem test_decode_andi : decodeTableWord 32 0x7FF37293 = some (.andi 5 6 0x7FF) := by decide
theorem test_decode_slli : decodeTableWord 32 0x00431293 = some (.slli 5 6 4) := by decide
theorem test_decode_srli : decodeTableWord 32 0x01F35293 = some (.srli 5 6 31) := by decide
theorem test_decode_srai : decodeTableWord 32 0x41F35293 = some (.srai 5 6 31) := by decide
theorem test_decode_add : decodeTableWord 32 0x007302B3 = some (.add 5 6 7) := by decide
theorem test_decode_sub : decodeTableWord 32 0x407302B3 = some (.sub 5 6 7) := by decide
theorem test_decode_sll : decodeTableWord 32 0x007312B3 = some (.sll 5 6 7) := by decide
theorem test_decode_slt : decodeTableWord 32 0x007322B3 = some (.slt 5 6 7) := by decide
theorem test_decode_sltu : decodeTableWord 32 0x007332B3 = some (.sltu 5 6 7) := by decide
theorem test_decode_xor : decodeTableWord 32 0x006342B3 = some (.xor 5 6 6) := by decide
theorem test_decode_srl : decodeTableWord 32 0x007352B3 = some (.srl 5 6 7) := by decide
theorem test_decode_sra : decodeTableWord 32 0x407352B3 = some (.sra 5 6 7) := by decide
theorem test_decode_or : decodeTableWord 32 0x000362B3 = some (.or 5 6 0) := by decide
theorem test_decode_and : decodeTableWord 32 0x007372B3 = some (.and 5 6 7) := by decide
theorem test_decode_mul : decodeTableWord 32 0x027302B3 = some (.mul 5 6 7) := by decide
theorem test_decode_mulh : decodeTableWord 32 0x027312B3 = some (.mulh 5 6 7) := by decide
theorem test_decode_mulhsu : decodeTableWord 32 0x027322B3 = some (.mulhsu 5 6 7) := by decide
theorem test_decode_mulhu : decodeTableWord 32 0x027332B3 = some (.mulhu 5 6 7) := by decide
theorem test_decode_div : decodeTableWord 32 0x02734333 = some (.div 6 6 7) := by decide
theorem test_decode_divu : decodeTableWord 32 0x0220D233 = some (.divu 4 1 2) := by decide
theorem test_decode_rem : decodeTableWord 32 0x027363B3 = some (.rem 7 6 7) := by decide
theorem test_decode_remu : decodeTableWord 32 0x0220F1B3 = some (.remu 3 1 2) := by decide
theorem test_decode_ecall : decodeTableWord 32 0x00000073 = some (.ecall) := by decide

/-! ### Decoding: one word of each family written out bit by bit from the format tables (30_encoding.md R83) -/

/-- auipc x5, 0xFFFFF: imm[31:12], rd, opcode. -/
theorem test_bits_upper : DecodesTo (0b11111111111111111111#20 ++ 0b00101#5 ++ 0b0010111#7) (.auipc 5 0xFFFFF000) := rfl
/-- jal x1, 2048: imm[20], imm[10:1], imm[11], imm[19:12], rd, opcode. -/
theorem test_bits_jump :
    DecodesTo (0b0#1 ++ 0b0000000000#10 ++ 0b1#1 ++ 0b00000000#8 ++ 0b00001#5 ++ 0b1101111#7) (.jal 1 2048) := rfl
/-- bltu x3, x4, 2050: imm[12], imm[10:5], rs2, rs1, funct3, imm[4:1], imm[11], opcode. -/
theorem test_bits_branch :
    DecodesTo (0b0#1 ++ 0b000000#6 ++ 0b00100#5 ++ 0b00011#5 ++ 0b110#3 ++ 0b0001#4 ++ 0b1#1 ++ 0b1100011#7)
      (.bltu 3 4 2050) := rfl
/-- lhu x9, -2048(x8): imm[11:0], rs1, funct3, rd, opcode. -/
theorem test_bits_load :
    DecodesTo (0b100000000000#12 ++ 0b01000#5 ++ 0b101#3 ++ 0b01001#5 ++ 0b0000011#7) (.lhu 9 8 0xFFFFF800) := rfl
/-- sh x7, 33(x30): imm[11:5], rs2, rs1, funct3, imm[4:0], opcode. -/
theorem test_bits_store :
    DecodesTo (0b0000001#7 ++ 0b00111#5 ++ 0b11110#5 ++ 0b001#3 ++ 0b00001#5 ++ 0b0100011#7) (.sh 30 7 33) := rfl
/-- srai x2, x3, 16: funct7, shamt, rs1, funct3, rd, opcode. -/
theorem test_bits_alu_immediate :
    DecodesTo (0b0100000#7 ++ 0b10000#5 ++ 0b00011#5 ++ 0b101#3 ++ 0b00010#5 ++ 0b0010011#7) (.srai 2 3 16) := rfl
/-- sub x1, x2, x16: funct7, rs2, rs1, funct3, rd, opcode. -/
theorem test_bits_alu_register :
    DecodesTo (0b0100000#7 ++ 0b10000#5 ++ 0b00010#5 ++ 0b000#3 ++ 0b00001#5 ++ 0b0110011#7) (.sub 1 2 16) := rfl
/-- remu x1, x2, x16. -/
theorem test_bits_muldiv :
    DecodesTo (0b0000001#7 ++ 0b10000#5 ++ 0b00010#5 ++ 0b111#3 ++ 0b00001#5 ++ 0b0110011#7) (.remu 1 2 16) := rfl
/-- ecall: twenty-five zeros above the SYSTEM opcode. -/
theorem test_bits_system : DecodesTo (0b0000000000000000000000000#25 ++ 0b1110011#7) .ecall := rfl

/-! ### Decode errors (95_test_vectors.md L2.1) -/

theorem test_reject_opcodes : [0x00000000, 0xFFFFFFFF, 0x00000001, 0x0FF0000F, 0x0000100F, 0x0000000B, 0x0000002F, 0x0000003B, 0x00000053].all (fun w => (decodeTableWord 32 w).isNone) = true := by decide
theorem test_reject_system : [0x000000F3, 0x00008073, 0x00100073, 0x30200073, 0x10500073, 0x30001073, 0xC00022F3].all (fun w => (decodeTableWord 32 w).isNone) = true := by decide
theorem test_reject_funct : [0x02031293, 0x40031293, 0x42435293, 0x000010E7, 0x00003003, 0x00006003, 0x00007003, 0x00003023, 0x0000A063, 0x00003063, 0x42000033, 0x40001033, 0x40006033, 0x04000033, 0xFE000033].all (fun w => (decodeTableWord 32 w).isNone) = true := by decide
theorem test_reject_truncated : decodeBytes [0x13, 0, 0] = .error .truncated := by rfl
theorem test_immediates : (immI 0x80000013, immB 0x000000E3, immJ 0x0010006F, immS 0xFE000FA3, immU 0xFFFFF037) =
    (0xFFFFF800, 0x800, 0x800, 0xFFFFFFFF, 0xFFFFF000) := by decide

/-! ### One step (95_test_vectors.md L2.3 to L2.11): the register, the pc, the counter, the status -/

theorem test_lui :
    see 5 (vec 0xFFFFF2B7 [(5, 0x1234)]) = some (0xFFFFF000, 0x104, 1, .running) := by decide
theorem test_lui_x0 :
    see 0 (vec 0x12345037 []) = some (0, 0x104, 1, .running) := by decide
theorem test_auipc :
    see 5 (vec 0x80000297 []) = some (0x80000100, 0x104, 1, .running) := by decide
theorem test_auipc_wraps :
    see 5 (vecAt 0xFFFFFFFC 0x00001297 []) = some (0xFFC, 0, 1, .running) := by decide
theorem test_jal_wraps :
    see 1 (vec 0xE01FF0EF []) = some (0x104, 0xFFFFFF00, 1, .running) := by decide
theorem test_jal_misaligned :
    see 1 (vec 0x002000EF [(1, 0x55)]) = some (0x55, 0x100, 0, .haltedError (.instructionAddressMisaligned .jump 0x102)) := by decide
theorem test_jalr_same_register :
    see 1 (vec 0x000080E7 [(1, 0x200)]) = some (0x104, 0x200, 1, .running) := by decide
theorem test_jalr_misaligned :
    see 5 (vec 0xFFF002E7 []) = some (0, 0x100, 0, .haltedError (.instructionAddressMisaligned .jump 0xFFFFFFFE)) := by decide
theorem test_beq_taken :
    see 0 (vec 0xFE628CE3 [(5, 5), (6, 5)]) = some (0, 0xF8, 1, .running) := by decide
theorem test_beq_not_taken :
    see 0 (vec 0xFE628CE3 [(5, 5), (6, 6)]) = some (0, 0x104, 1, .running) := by decide
theorem test_bne_taken :
    see 0 (vec 0xFE629CE3 [(5, 5), (6, 6)]) = some (0, 0xF8, 1, .running) := by decide
theorem test_bne_not_taken :
    see 0 (vec 0xFE629CE3 [(5, 5), (6, 5)]) = some (0, 0x104, 1, .running) := by decide
theorem test_blt_taken :
    see 0 (vec 0xFE62CCE3 [(5, 0xFFFFFFFF), (6, 0)]) = some (0, 0xF8, 1, .running) := by decide
theorem test_blt_not_taken :
    see 0 (vec 0xFE62CCE3 [(5, 0), (6, 0xFFFFFFFF)]) = some (0, 0x104, 1, .running) := by decide
theorem test_bge_taken :
    see 0 (vec 0xFE62DCE3 [(5, 0x80000000), (6, 0x80000000)]) = some (0, 0xF8, 1, .running) := by decide
theorem test_bge_not_taken :
    see 0 (vec 0xFE62DCE3 [(5, 0x80000000), (6, 0x7FFFFFFF)]) = some (0, 0x104, 1, .running) := by decide
theorem test_bltu_taken :
    see 0 (vec 0xFE62ECE3 [(5, 0), (6, 0xFFFFFFFF)]) = some (0, 0xF8, 1, .running) := by decide
theorem test_bltu_not_taken :
    see 0 (vec 0xFE62ECE3 [(5, 0xFFFFFFFF), (6, 0)]) = some (0, 0x104, 1, .running) := by decide
theorem test_bgeu_taken :
    see 0 (vec 0xFE62FCE3 [(5, 0xFFFFFFFF), (6, 0)]) = some (0, 0xF8, 1, .running) := by decide
theorem test_bgeu_not_taken :
    see 0 (vec 0xFE62FCE3 [(5, 0), (6, 1)]) = some (0, 0x104, 1, .running) := by decide
theorem test_lb :
    see 5 (vec 0x00030283 [(6, 0x200)] [(0x200, 0x80), (0x201, 0xFF), (0x202, 0x7F), (0x203, 0x01)]) = some (0xFFFFFF80, 0x104, 1, .running) := by decide
theorem test_lb_x0_unmapped :
    see 0 (vec 0x00030003 [(6, 0x2000)]) = some (0, 0x100, 0, .haltedError (.memoryAccessError .load 0x2000)) := by decide
theorem test_lbu :
    see 5 (vec 0x00034283 [(6, 0x200)] [(0x200, 0x80), (0x201, 0xFF), (0x202, 0x7F), (0x203, 0x01)]) = some (0x80, 0x104, 1, .running) := by decide
theorem test_lh :
    see 5 (vec 0x00231283 [(6, 0x200)] [(0x200, 0x80), (0x201, 0xFF), (0x202, 0x7F), (0x203, 0x01)]) = some (0x17F, 0x104, 1, .running) := by decide
theorem test_lh_misaligned :
    see 5 (vec 0x00131283 [(6, 0x200), (5, 0x55)] [(0x200, 0x80), (0x201, 0xFF), (0x202, 0x7F), (0x203, 0x01)]) = some (0x55, 0x100, 0, .haltedError (.misalignedDataAccess .load 0x201)) := by decide
theorem test_lhu :
    see 5 (vec 0x00035283 [(6, 0x200)] [(0x200, 0x80), (0x201, 0xFF), (0x202, 0x7F), (0x203, 0x01)]) = some (0xFF80, 0x104, 1, .running) := by decide
theorem test_lhu_split :
    see 5 (vec 0x00335283 [(6, 0x200)] [(0x200, 0x80), (0x201, 0xFF), (0x202, 0x7F), (0x203, 0x01), (0x204, 0)] .split) = some (0x1, 0x104, 1, .running) := by decide
theorem test_lw_wraps :
    see 5 (vec 0x20432283 [(6, 0xFFFFFFFC)] [(0x200, 0x80), (0x201, 0xFF), (0x202, 0x7F), (0x203, 0x01)]) = some (0x17FFF80, 0x104, 1, .running) := by decide
theorem test_lw_split_unmapped :
    see 5 (vec 0x00032283 [(6, 0x3FE), (5, 0x55)] [] .split) = some (0x55, 0x100, 0, .haltedError (.memoryAccessError .load 0x3FE)) := by decide
theorem test_sb :
    seeMem [0x200, 0x201] (vec 0x00530023 [(5, 0x12345678), (6, 0x200)]) = some ([some 0x78, none], 0x104, 1, .running) := by decide
theorem test_sh :
    seeMem [0x201, 0x202, 0x203, 0x204] (vec 0x00531123 [(5, 0x12345678), (6, 0x200)]) = some ([none, some 0x78, some 0x56, none], 0x104, 1, .running) := by decide
theorem test_sh_misaligned :
    seeMem [0x201, 0x202] (vec 0x005310A3 [(5, 0xBEEF), (6, 0x200)]) = some ([none, none], 0x100, 0, .haltedError (.misalignedDataAccess .store 0x201)) := by decide
theorem test_sw_split :
    seeMem [0x202, 0x203, 0x204, 0x205] (vec 0x00532123 [(5, 0x12345678), (6, 0x200)] [] .split) = some ([some 0x78, some 0x56, some 0x34, some 0x12], 0x104, 1, .running) := by decide
theorem test_sw_split_unmapped :
    seeMem [0x3FE, 0x3FF] (vec 0x00532123 [(5, 0x12345678), (6, 0x3FC)] [] .split) = some ([none, none], 0x100, 0, .haltedError (.memoryAccessError .store 0x3FE)) := by decide
theorem test_addi :
    see 5 (vec 0x7FF30293 [(6, 0x7FFFFFFF)]) = some (0x800007FE, 0x104, 1, .running) := by decide
theorem test_addi_same :
    see 6 (vec 0x00130313 [(6, 0xFFFFFFFF)]) = some (0, 0x104, 1, .running) := by decide
theorem test_slti :
    see 5 (vec 0xFFF32293 [(6, 0x80000000)]) = some (1, 0x104, 1, .running) := by decide
theorem test_slti_equal :
    see 5 (vec 0xFFF32293 [(6, 0xFFFFFFFF)]) = some (0, 0x104, 1, .running) := by decide
theorem test_sltiu :
    see 5 (vec 0xFFF33293 [(6, 0xFFFFFFFE)]) = some (1, 0x104, 1, .running) := by decide
theorem test_sltiu_false :
    see 5 (vec 0x00133293 [(6, 7)]) = some (0, 0x104, 1, .running) := by decide
theorem test_xori :
    see 5 (vec 0xFFF34293 [(6, 0x0F0F0F0F)]) = some (0xF0F0F0F0, 0x104, 1, .running) := by decide
theorem test_ori :
    see 5 (vec 0x80036293 [(6, 1)]) = some (0xFFFFF801, 0x104, 1, .running) := by decide
theorem test_andi :
    see 5 (vec 0x7FF37293 [(6, 0xFFFFFFFF)]) = some (0x7FF, 0x104, 1, .running) := by decide
theorem test_slli :
    see 5 (vec 0x00431293 [(6, 0xF0000001)]) = some (0x10, 0x104, 1, .running) := by decide
theorem test_slli_zero :
    see 5 (vec 0x00031293 [(6, 0x12345678)]) = some (0x12345678, 0x104, 1, .running) := by decide
theorem test_srli :
    see 5 (vec 0x01F35293 [(6, 0x80000000)]) = some (1, 0x104, 1, .running) := by decide
theorem test_srai :
    see 5 (vec 0x41F35293 [(6, 0x80000000)]) = some (0xFFFFFFFF, 0x104, 1, .running) := by decide
theorem test_srai_zero :
    see 5 (vec 0x40035293 [(6, 0x80000000)]) = some (0x80000000, 0x104, 1, .running) := by decide
theorem test_add :
    see 5 (vec 0x007302B3 [(6, 0x7FFFFFFF), (7, 1)]) = some (0x80000000, 0x104, 1, .running) := by decide
theorem test_add_same :
    see 5 (vec 0x005282B3 [(5, 0x80000000)]) = some (0, 0x104, 1, .running) := by decide
theorem test_sub :
    see 5 (vec 0x407302B3 [(6, 0x80000000), (7, 1)]) = some (0x7FFFFFFF, 0x104, 1, .running) := by decide
theorem test_sll :
    see 5 (vec 0x007312B3 [(6, 1), (7, 0x1F)]) = some (0x80000000, 0x104, 1, .running) := by decide
theorem test_sll_32 :
    see 5 (vec 0x007312B3 [(6, 1), (7, 0x20)]) = some (1, 0x104, 1, .running) := by decide
theorem test_slt :
    see 5 (vec 0x007322B3 [(6, 0xFFFFFFFF), (7, 0)]) = some (1, 0x104, 1, .running) := by decide
theorem test_slt_false :
    see 5 (vec 0x007322B3 [(6, 0), (7, 0xFFFFFFFF)]) = some (0, 0x104, 1, .running) := by decide
theorem test_sltu :
    see 5 (vec 0x007332B3 [(6, 0), (7, 0xFFFFFFFF)]) = some (1, 0x104, 1, .running) := by decide
theorem test_xor :
    see 5 (vec 0x006342B3 [(6, 0xDEADBEEF)]) = some (0, 0x104, 1, .running) := by decide
theorem test_srl :
    see 5 (vec 0x007352B3 [(6, 0xF0000000), (7, 0x24)]) = some (0x0F000000, 0x104, 1, .running) := by decide
theorem test_sra :
    see 5 (vec 0x407352B3 [(6, 0xF0000000), (7, 0x24)]) = some (0xFF000000, 0x104, 1, .running) := by decide
theorem test_sra_positive :
    see 5 (vec 0x407352B3 [(6, 0x70000000), (7, 0x1C)]) = some (7, 0x104, 1, .running) := by decide
theorem test_or :
    see 5 (vec 0x000362B3 [(6, 0x12345678)]) = some (0x12345678, 0x104, 1, .running) := by decide
theorem test_and :
    see 5 (vec 0x007372B3 [(6, 0xFF00FF00), (7, 0x0FF00FF0)]) = some (0x0F000F00, 0x104, 1, .running) := by decide
theorem test_mul :
    see 6 (vec 0x02630333 [(6, 0x10000)]) = some (0, 0x104, 1, .running) := by decide
theorem test_mul_ones :
    see 5 (vec 0x027302B3 [(6, 0xFFFFFFFF), (7, 0xFFFFFFFF)]) = some (1, 0x104, 1, .running) := by decide
theorem test_mulh :
    see 5 (vec 0x027312B3 [(6, 0xFFFFFFFF), (7, 0xFFFFFFFF)]) = some (0, 0x104, 1, .running) := by decide
theorem test_mulhsu :
    see 5 (vec 0x027322B3 [(6, 0xFFFFFFFF), (7, 0xFFFFFFFF)]) = some (0xFFFFFFFF, 0x104, 1, .running) := by decide
theorem test_mulhsu_order :
    see 5 (vec 0x027322B3 [(6, 2), (7, 0xFFFFFFFF)]) = some (1, 0x104, 1, .running) := by decide
theorem test_mulhu :
    see 5 (vec 0x027332B3 [(6, 0xFFFFFFFF), (7, 0xFFFFFFFF)]) = some (0xFFFFFFFE, 0x104, 1, .running) := by decide
theorem test_div :
    see 5 (vec 0x027342B3 [(6, 0xFFFFFFF9), (7, 2)]) = some (0xFFFFFFFD, 0x104, 1, .running) := by decide
theorem test_div_zero :
    see 5 (vec 0x020342B3 [(6, 0x80000000)]) = some (0xFFFFFFFF, 0x104, 1, .running) := by decide
theorem test_rem :
    see 5 (vec 0x027362B3 [(6, 0xFFFFFFF9), (7, 2)]) = some (0xFFFFFFFF, 0x104, 1, .running) := by decide
theorem test_rem_overflow :
    see 5 (vec 0x027362B3 [(6, 0x80000000), (7, 0xFFFFFFFF)]) = some (0, 0x104, 1, .running) := by decide
theorem test_divu :
    see 5 (vec 0x027352B3 [(6, 0xFFFFFFF9), (7, 2)]) = some (0x7FFFFFFC, 0x104, 1, .running) := by decide
theorem test_divu_zero :
    see 5 (vec 0x020352B3 []) = some (0xFFFFFFFF, 0x104, 1, .running) := by decide
theorem test_remu :
    see 5 (vec 0x027372B3 [(6, 0xFFFFFFF9), (7, 2)]) = some (1, 0x104, 1, .running) := by decide
theorem test_remu_zero :
    see 5 (vec 0x020372B3 [(6, 0x12345678)]) = some (0x12345678, 0x104, 1, .running) := by decide
theorem test_ecall_read : (nx (step (vec 0x73 [(17, 1)] [] .fault [0x80, 0x41]))).map
    (fun t => (t.readReg 10, t.consoleIn, t.pc, t.instret)) = some (0xFFFFFF80, [0x41], 0x104, 1) := by decide
theorem test_ecall_blocked : step (vec 0x73 [(17, 1)]) = .fault .consoleBlocked := by rfl
theorem test_ecall_write : (nx (step (vec 0x73 [(17, 2), (10, 0x12345641)]))).map
    (fun t => (t.readReg 10, t.consoleOut, t.pc, t.instret)) = some (0x12345641, [0x41], 0x104, 1) := by decide

theorem test_ecall_exit :
    see 10 (vec 0x73 [(17, 0x5D)]) = some (0, 0x104, 1, .haltedNormal) := by decide
theorem test_ecall_unknown :
    see 17 (vec 0x73 [(17, 0x101)]) = some (0x101, 0x100, 0, .haltedError (.unsupportedSyscall 0x101)) := by decide

/-! ### Fetch, reset and the next step (95_test_vectors.md L2.12) -/

theorem test_fetch_misaligned : (nx (step { vec 0x13 [] with pc := 0x402 })).map (·.status) =
    some (.haltedError (.instructionAddressMisaligned .fetch 0x402)) := by decide
theorem test_fetch_unmapped : (nx (step { vec 0x13 [] with pc := 0x400 })).map (·.status) =
    some (.haltedError (.memoryAccessError .fetch 0x400)) := by decide
theorem test_decode_error : see 0 (vec 0 []) = some (0, 0x100, 0, .haltedError (.decodeError 0)) := by decide
theorem test_reset_runs_word : see 5 (State.reset.withFetchWord 32 0xFFF00293) = some (0xFFFFFFFF, 4, 1, .running) := by
  decide
theorem test_halted : step { vec 0x13 [] with status := .haltedNormal } = .fault .sessionHalted := by rfl

/-! ### Witnesses: for each statement with hypotheses, a state and operands that meet them together -/

theorem wordAt_of_fetch {s : State} {w : Word} (h : s.bytesAt s.pc .word = w) : WordAt s s.pc w :=
  h ▸ wordAt_bytesAt s s.pc

theorem not_mapped {s : State} {a : Word} {n : Nat} (h : s.allMapped a n = false) : ¬ MappedAccess s a n :=
  fun hm => Bool.false_ne_true (h.symm.trans (allMapped_iff.2 hm))

theorem not_mappedByte {s : State} {a : Word} (h : s.isMapped a = false) : ¬ MappedByte s a :=
  fun hm => Bool.false_ne_true (h.symm.trans (isMapped_iff.2 hm))

theorem not_misaligned_split {s : State} {a : Word} {n : Nat} (h : s.params.misaligned = .split) :
    ¬ MisalignedUnderFault s a n :=
  fun hm => MisalignedDataPolicy.noConfusion (hm.1.symm.trans h)

/-- DecodeOfEncodeGivesTheInstruction, at the ends of the immediates' ranges. -/
theorem wit_wellFormed : ([.bge 0 0 0xFFFFF000, .beq 0 0 0xFFE, .jal 31 0xFFF00000, .jal 31 0xFFFFE, .lw 31 0 0xFFFFF800,
    .sw 31 0 0x7FF, .lui 1 0xFFFFF000, .slli 1 2 31, .remu 31 31 31, .ecall] : List Instr).all Instr.wellFormed = true := by
  decide
/-- EncodeOfDecodeGivesTheWord, DecodeErrorExactlyWhenNoRowMatches. -/
theorem wit_decodes : DecodesTo 0x7FFFF06F (.jal 0 0xFFFFE) ∧ IsDecodeError 0x00000001 ∧ IsDecodeError 0x0000007F ∧
    IsDecodeError 0x00000007 := ⟨rfl, ⟨_, rfl⟩, ⟨_, rfl⟩, ⟨_, rfl⟩⟩
/-- The other clauses of DecodeErrorExactlyWhenNoRowMatches: low bits other than 11, and the listed opcodes' ends. -/
theorem wit_low_bits : (0xFFFFFFFE#32).extractLsb' 0 2 ≠ 0b11#2 ∧ (0x00000007#32).extractLsb' 0 7 = 0x07#7 ∧
    (0xFFFFFFFF#32).extractLsb' 0 7 = 0x7F#7 := by decide
/-- OpcodeRowsAreDisjoint. -/
theorem wit_row : ("REMU", 0x02007033, 0xFE00707F) ∈ opcodeTable ∧
    rowMatches 0x0220F1B3 ("REMU", 0x02007033, 0xFE00707F) = true := by decide
/-- ImmediatesOfFormatsIAndSAndU, ImmediatesOfFormatsBAndJ: the bits where the clauses meet. -/
theorem wit_bits : ([0, 4, 5, 10, 11, 12, 19, 20, 31] : List Nat).all (· < 32) = true := by decide

/-- StepRunsTheDecodedInstruction, and the successful fetches of FetchAndDecodeErrorsInOrder. -/
theorem wit_step : let s := vec 0x00730033 []
    s.Running ∧ s.pc.toNat % 4 = 0 ∧ MappedAccess s s.pc 4 ∧ WordAt s s.pc 0x00730033 ∧
      DecodesTo 0x00730033 (.add 0 6 7) :=
  ⟨rfl, rfl, allMapped_iff.1 rfl, wordAt_of_fetch rfl, rfl⟩
/-- FetchAndDecodeErrorsInOrder: each clause, and the second part of FailedInstructionIsNeverSkipped. -/
theorem wit_fetch_errors :
    (let s := { vec 0x13 [] with pc := 0x402 }; s.Running ∧ s.pc.toNat % 4 ≠ 0) ∧
    (let s := { vec 0x13 [] with pc := 0x400 }; s.Running ∧ s.pc.toNat % 4 = 0 ∧ ¬ MappedAccess s s.pc 4) ∧
    (let s := vec 0xFFFFFFFF [];
      s.Running ∧ s.pc.toNat % 4 = 0 ∧ MappedAccess s s.pc 4 ∧ WordAt s s.pc 0xFFFFFFFF ∧ IsDecodeError 0xFFFFFFFF) :=
  ⟨⟨rfl, by decide⟩, ⟨rfl, rfl, not_mapped rfl⟩,
    ⟨rfl, rfl, allMapped_iff.1 rfl, wordAt_of_fetch rfl, ⟨_, rfl⟩⟩⟩
/-- FailedInstructionIsNeverSkipped: a step that ends in an error of the execute stage. -/
theorem wit_failed : let s := vec 0x00032283 [(6, 0x2000)]
    step s = .next (s.raise (.memoryAccessError .load 0x2000)) := rfl
/-- HaltedIsFinal: both halts. -/
theorem wit_halted : ({ vec 0x13 [] with status := .haltedNormal } : State).status ≠ .running ∧
    ({ vec 0x13 [] with status := .haltedError (.decodeError 0) } : State).status ≠ .running := by decide
/-- StepRetiresOrHaltsPrecisely, StepKeepsTheInvariant, StepKeepsSessionParameters, RegisterFileReadsAndWrites,
CounterAndTraceNeverAffectExecution: a state in the invariant, with a trace sink, and its step. -/
theorem wit_inv : let s := { vec 0x00130313 [(6, 0xFFFFFFFF)] with trace := some [] }
    s.Inv ∧ ∃ t, step s = .next t ∧ t.Inv ∧ t.readReg 6 = 0 ∧ t.trace.map List.length = some 1 := by
  refine ⟨⟨rfl, rfl, ⟨by decide, by decide⟩, fun r h => ?_⟩, _, rfl, ⟨rfl, rfl, ⟨by decide, by decide⟩, fun r h => ?_⟩, rfl, rfl⟩
  · cases h; rfl
  · cases h; rfl
/-- CounterAndTraceNeverAffectExecution: the clause of a step that stops. -/
theorem wit_fault : step (vec 0x73 [(17, 1)]) = .fault .consoleBlocked := rfl
/-- SessionStartsInTheInvariant: the highest aligned entry address. -/
theorem wit_entry : (0xFFFFFFFC : Word).toNat % 4 = 0 := by decide
/-- OnlyStoresChangeMemory: the byte at 0x201 reads otherwise after the step. -/
theorem wit_store_changes : let s := vec 0x00531023 [(5, 0x1234), (6, 0x200)] [(0x201, 0x99)]
    ∃ t, step s = .next t ∧ t.byteAt 0x201 = 0x12 ∧ s.byteAt 0x201 = 0x99 := ⟨_, rfl, rfl, rfl⟩
/-- OnlyEcallUsesConsoleOrHaltsNormally. -/
theorem wit_not_ecall : Instr.sw 6 5 0 ≠ .ecall ∧ ∃ t, exec (.sw 6 5 0) (vec 0 [(6, 0x200)]) = .next t :=
  ⟨by decide, _, rfl⟩
/-- RegisterFileReadsAndWrites: the ends of the register numbers. -/
theorem wit_registers : (1 : RegIdx) ≠ 0 ∧ (31 : RegIdx) ≠ 0 ∧ (31 : RegIdx) ≠ 1 := by decide
/-- NextPcIsPcPlusFourByDefault: a plain instruction and a branch that retire; PcWrapsAtTheTop. -/
theorem wit_retires :
    (let s := vecAt 0xFFFFFFFC 0x00001297 []
      ∃ t, exec (.auipc 5 0x1000) s = .next t ∧ t.instret ≠ s.instret ∧ transfersControl (.auipc 5 0x1000) = false ∧
        s.pc = 0xFFFFFFFC) ∧
    (let s := vec 0x13 []; ∃ t, exec (.bgeu 0 0 8) s = .next t ∧ t.instret ≠ s.instret) :=
  ⟨⟨_, rfl, by decide, rfl, rfl⟩, ⟨_, rfl, by decide⟩⟩
/-- CounterCountsTheRetiredInstructions: no step and two steps. -/
theorem wit_run : let s := { vec 0x13 [] [(0x104, 0x13), (0x105, 0), (0x106, 0), (0x107, 0)] with trace := some [] }
    (∃ t, Sys2Proof.core.run 0 s = .next t ∧ t.status = .running) ∧
    (∃ t, Sys2Proof.core.run 2 s = .next t ∧ t.status = .running ∧ t.trace.map List.length = some 2) :=
  ⟨⟨_, rfl, rfl⟩, ⟨_, rfl, rfl, rfl⟩⟩
/-- PlacedWordIsRunNext. -/
theorem wit_table_word : decodeTableWord 32 0x02007033 = some (.remu 0 0 0) := by decide
/-- NextFetchSeesTheStore: a halfword store over the upper half of the next instruction; byte 2 of the fetched word is
stored, byte 0 is not. -/
theorem wit_next_fetch : let s := vec 0x13 [(5, 0x1234), (6, 0x106)]
    ∃ t, exec (.sh 6 5 0) s = .next t ∧ t.instret ≠ s.instret ∧ t.pc.toNat % 4 = 0 ∧ MappedAccess t t.pc 4 ∧
      t.pc + BitVec.ofNat 32 2 = s.readReg 6 + 0 + BitVec.ofNat 32 0 ∧
      ∀ j < 2, t.pc + BitVec.ofNat 32 0 ≠ s.readReg 6 + 0 + BitVec.ofNat 32 j :=
  ⟨_, rfl, by decide, rfl, allMapped_iff.1 rfl, rfl, by decide⟩
/-- StoredInstructionRunsNext. -/
theorem wit_stored : let s := vec 0x00532023 [(5, 0x00A00393), (6, 0x104)]
    s.Running ∧ s.pc.toNat % 4 = 0 ∧ s.readReg 6 + 0 = s.pc + 4 ∧ MappedAccess s (s.pc + 4) 4 ∧
      DecodesTo (s.readReg 5) (.addi 7 0 10) := ⟨rfl, rfl, rfl, allMapped_iff.1 rfl, rfl⟩
/-- CanonicalMemoriesThatReadAlikeAreEqual. -/
theorem wit_memory : Memory.wf [(0, 1), (0xFFFFFFFF, 2)] ∧
    ∀ k, Memory.read? [(0, 1), (0xFFFFFFFF, 2)] k = Memory.read? [(0, 1), (0xFFFFFFFF, 2)] k :=
  ⟨⟨by decide, by decide⟩, fun _ => rfl⟩
/-- LoadAfterStoreReturnsTheStoredValue: each width, at the last addresses of a mapped region. -/
theorem wit_load_after : let s := vec 0x13 [(5, 0x8182F3F4), (6, 0x3FC)]
    (∃ t, exec (.sw 6 5 0) s = .next t ∧ t.readReg 6 + 0 = s.readReg 6 + 0 ∧ t.instret ≠ s.instret) ∧
    (∃ t, exec (.sh 6 5 2) s = .next t ∧ t.readReg 6 + 2 = s.readReg 6 + 2 ∧ t.instret ≠ s.instret) ∧
    (∃ t, exec (.sb 6 5 3) s = .next t ∧ t.readReg 6 + 3 = s.readReg 6 + 3 ∧ t.instret ≠ s.instret) :=
  ⟨⟨_, rfl, rfl, by decide⟩, ⟨_, rfl, rfl, by decide⟩, ⟨_, rfl, rfl, by decide⟩⟩
/-- JumpToUnmappedTargetFailsAtTheNextFetch: the wrapping jump of 95_test_vectors.md L2.4. -/
theorem wit_jump_unmapped : let s := vec 0xE01FF0EF []
    s.Running ∧ (s.pc + 0xFFFFFE00).toNat % 4 = 0 ∧ ¬ MappedAccess s (s.pc + 0xFFFFFE00) 4 :=
  ⟨rfl, rfl, not_mapped rfl⟩
/-- JalLinksAndJumps, JalrLinksAndJumps: aligned and misaligned targets, and a funct3 that is not JALR's. -/
theorem wit_jumps : let s := vec 0x13 [(6, 0x200)]
    (s.pc + 8).toNat % 4 = 0 ∧ (s.pc + 2).toNat % 4 ≠ 0 ∧ (0b111#3) ≠ 0b000 ∧
    (BitVec.ofNat 32 ((s.readReg 6 + 1).toNat - (s.readReg 6 + 1).toNat % 2)).toNat % 4 = 0 ∧
    (BitVec.ofNat 32 ((s.readReg 6 + 3).toNat - (s.readReg 6 + 3).toNat % 2)).toNat % 4 ≠ 0 := by decide
/-- BeqAndBne, BltAndBge, BltuAndBgeu: each condition holding and failing, with an aligned and a misaligned target. -/
theorem wit_branches : let s := vec 0x13 [(5, 0xFFFFFFFF), (6, 1)]
    (s.pc + 0xFFFFFFF8).toNat % 4 = 0 ∧ (s.pc + 6).toNat % 4 ≠ 0 ∧
    s.readReg 5 = s.readReg 5 ∧ ¬ s.readReg 5 = s.readReg 6 ∧
    (s.readReg 5).toInt < (s.readReg 6).toInt ∧ ¬ (s.readReg 6).toInt < (s.readReg 5).toInt ∧
    (s.readReg 6).toNat < (s.readReg 5).toNat ∧ ¬ (s.readReg 5).toNat < (s.readReg 6).toNat := by decide
/-- ByteLoads, ByteStore: the last mapped byte and the first unmapped one. -/
theorem wit_byte : let s := vec 0x13 [(6, 0x3FF)]
    MappedByte s (s.readReg 6 + 0) ∧ ¬ MappedByte s (s.readReg 6 + 1) :=
  ⟨isMapped_iff.1 rfl, not_mappedByte rfl⟩
/-- HalfwordLoads, WordLoad, HalfwordAndWordStores: each clause, the mapped access running to the last mapped byte and the
unmapped one starting a byte later under policy split. -/
theorem wit_access : let s := vec 0x13 [(6, 0x3FC)]; let s' := vec 0x13 [(6, 0x3FD)] [] .split
    MisalignedUnderFault s (s.readReg 6 + 1) 2 ∧ MisalignedUnderFault s (s.readReg 6 + 2) 4 ∧
    (¬ MisalignedUnderFault s (s.readReg 6 + 2) 2 ∧ MappedAccess s (s.readReg 6 + 2) 2) ∧
    (¬ MisalignedUnderFault s (s.readReg 6 + 0) 4 ∧ MappedAccess s (s.readReg 6 + 0) 4) ∧
    (¬ MisalignedUnderFault s' (s'.readReg 6 + 2) 2 ∧ ¬ MappedAccess s' (s'.readReg 6 + 2) 2) ∧
    (¬ MisalignedUnderFault s' (s'.readReg 6 + 0) 4 ∧ ¬ MappedAccess s' (s'.readReg 6 + 0) 4) :=
  ⟨⟨rfl, by decide⟩, ⟨rfl, by decide⟩, ⟨fun h => h.2 rfl, allMapped_iff.1 rfl⟩, ⟨fun h => h.2 rfl, allMapped_iff.1 rfl⟩,
    ⟨not_misaligned_split rfl, not_mapped rfl⟩,
    ⟨not_misaligned_split rfl, not_mapped rfl⟩⟩
/-- The misaligned access that completes under policy split. -/
theorem wit_split : let s := vec 0x13 [(6, 0x201)] [] .split
    (¬ MisalignedUnderFault s (s.readReg 6 + 0) 2 ∧ MappedAccess s (s.readReg 6 + 0) 2) ∧
    (¬ MisalignedUnderFault s (s.readReg 6 + 0) 4 ∧ MappedAccess s (s.readReg 6 + 0) 4) :=
  ⟨⟨not_misaligned_split rfl, allMapped_iff.1 rfl⟩,
    ⟨not_misaligned_split rfl, allMapped_iff.1 rfl⟩⟩
/-- ImmediateShifts: the funct7 values that are decode errors. -/
theorem wit_funct7 : (0b0100000#7) ≠ 0b0000000 ∧ (0b0100001#7) ≠ 0b0000000 ∧ (0b0100001#7) ≠ 0b0100000 := by decide
/-- UnsignedDivision, SignedDivision: a zero divisor, the overflow pair, and a pair that is neither. -/
theorem wit_division : let s := vec 0x13 [(5, 0x80000000), (6, 0xFFFFFFFF), (7, 7)]
    s.readReg 0 = 0 ∧ s.readReg 6 ≠ 0 ∧ (s.readReg 5 = 0x80000000 ∧ s.readReg 6 = 0xFFFFFFFF) ∧
    ¬ (s.readReg 5 = 0x80000000 ∧ s.readReg 7 = 0xFFFFFFFF) := by decide
/-- EcallReadsACharacter: words of the SYSTEM opcode, and a read with a byte supplied. -/
theorem wit_ecall_read : (0x00000073#32).extractLsb' 0 7 = 0b1110011#7 ∧
    ((0x00100073#32).extractLsb' 0 7 = 0b1110011#7 ∧ (0x00100073 : Word) ≠ 0x00000073) ∧
    (let s := vec 0x73 [(17, 1)] [] .fault [0x80]; s.readReg a7 = 1 ∧ s.consoleIn = 0x80 :: []) := by decide
/-- EcallBlocksUntilAByteIsSupplied, EcallWritesACharacter, EcallExits, EcallRefusesUnknownNumbers. -/
theorem wit_ecall : ((vec 0x73 [(17, 1)]).readReg a7 = 1 ∧ (vec 0x73 [(17, 1)]).consoleIn = []) ∧
    (vec 0x73 [(17, 2)]).readReg a7 = 2 ∧ (vec 0x73 [(17, 3)]).readReg a7 = 3 ∧ (vec 0x73 [(17, 93)]).readReg a7 = 93 ∧
    (vec 0x73 [(17, 0)]).readReg a7 ∉ [1#32, 2#32, 3#32, 93#32] ∧
    (vec 0x73 [(17, 0x101)]).readReg a7 ∉ [1#32, 2#32, 3#32, 93#32] := by decide
/-- StatusCodesAndOutcome: running and halted. -/
theorem wit_status : (vec 0x13 []).status = .running ∧ ((vec 0x13 []).raise (.decodeError 0)).status ≠ .running := by decide

end Sys2Proof.Tests
end

section
/-! SUPPORT. The proofs of the statements about the state (10_state.md), with the lemmas they need. -/

namespace Sys2Proof.Machine

/-! ### What a step can answer -/

/-- `step_cases` without the fetch: whatever stage a step ends in, it raised an error or committed one allowed effect. -/
theorem step_raises_or_commits {s t : State} (h : step s = .next t) :
    (∃ e, t = s.raise e) ∨ ∃ i e, t = s.commit e ∧ Allowed i s e := by
  obtain ⟨-, hraise | ⟨-, i, -, -, -, -, hexec⟩⟩ := step_cases h
  · exact .inl hraise
  · exact (exec_cases hexec).imp_right fun hcommit => ⟨i, hcommit⟩

/-- An instruction that moved the counter raised no error. -/
theorem exec_commits_of_instret_ne {i : Instr} {s t : State} (h : exec i s = .next t) (hc : t.instret ≠ s.instret) :
    ∃ e, t = s.commit e ∧ Allowed i s e := by
  obtain ⟨e, rfl⟩ | hcommit := exec_cases h
  · exact (hc rfl).elim
  · exact hcommit

/-- A step that leaves the core Running retired an instruction. -/
theorem retired_of_step_running {s t : State} (h : step s = .next t) (ht : t.status = .running) : Retired s t := by
  obtain ⟨e, rfl⟩ | ⟨-, e, rfl, -⟩ := step_raises_or_commits h
  · cases ht
  · exact retired_commit s e

theorem step_not_refused (s : State) (r : Refusal) : step s ≠ .refused r := by
  unfold step
  split
  · split
    · nofun
    · split
      · nofun
      · exact exec_not_refused _ _ _
  · nofun
  · nofun

/-! ### What each part of a commit leaves unchanged -/

theorem memAfter_wf (e : Effect) {m : Memory} (hm : m.wf) : (e.memAfter m).wf := by
  unfold Effect.memAfter
  split
  · exact writeBytes_wf _ _ hm
  · exact hm

theorem consoleInAfter_of_not_read {e : Effect} (h : e.consoleRead = false) (l : List Byte) :
    e.consoleInAfter l = l := by
  simp [Effect.consoleInAfter, h]

theorem consoleOutAfter_of_not_written {e : Effect} (h : e.consoleWrite = none) (l : List Byte) :
    e.consoleOutAfter l = l := by
  simp [Effect.consoleOutAfter, h]

/-- An effect has at most one register write. -/
theorem commit_sameRegsExcept (s : State) (e : Effect) : ∃ rd, SameRegsExcept rd s (s.commit e) := by
  obtain ⟨_ | ⟨rd, v⟩, mw, pc, cr, cw, halt⟩ := e
  · exact ⟨0, fun r _ => readReg_congr rfl r⟩
  · refine ⟨rd, fun r hr => ?_⟩
    rw [readReg_write (rd := rd) (v := v) rfl, if_neg hr]

/-! ### The invariant -/

theorem raise_inv {s : State} (hs : s.Inv) (e : ErrorKind) : (s.raise e).Inv := hs

/-- Adding 4 keeps a pc aligned, the wrap at 2^32 included. -/
theorem toNat_add_four_mod_four {a : Word} (h : a.toNat % 4 = 0) : (a + 4).toNat % 4 = 0 := by
  bv_omega

theorem commit_inv {i : Instr} {s : State} {e : Effect} (hs : s.Inv) (ha : Allowed i s e) : (s.commit e).Inv := by
  obtain ⟨hzero, hpc, hmem, htrace⟩ := hs
  refine ⟨(regsAfter_zero_slot e s.regs).trans hzero, ?_, memAfter_wf e hmem, fun records h => ?_⟩
  · rw [commit_pc]
    obtain hnext | haligned := ha.pc
    · rw [hnext]; exact toNat_add_four_mod_four hpc
    · exact haligned
  · rw [commit_trace, Option.map_eq_some_iff] at h
    obtain ⟨before, hbefore, rfl⟩ := h
    simp [htrace before hbefore, BitVec.ofNat_add]

/-! ### Noninterference of the counter and the trace -/

/-- `exec_recount` for the whole step: the fetch reads neither the counter nor the trace. -/
theorem step_recount (s : State) (n : Counter) (tr : Option (List TraceRecord)) :
    SameButCount (step s) (step (s.recount n tr)) := by
  have hstatus : (s.recount n tr).status = s.status := rfl
  have hfetch : (s.recount n tr).fetch = s.fetch := rfl
  unfold step
  rw [hstatus, hfetch]
  split
  · split
    · exact sameButCount_next rfl
    · split
      · exact sameButCount_next rfl
      · exact exec_recount _ s n tr
  · rfl
  · rfl

theorem sameButCount_next_left {t : State} {r : Result} (h : SameButCount (.next t) r) :
    ∃ t', r = .next t' ∧ t' = t.recount t'.instret t'.trace := by
  cases r with
  | next t' => exact ⟨t', rfl, h⟩
  | fault f => exact h.elim
  | refused f => exact h.elim

theorem sameButCount_fault_left {f : Fault} {r : Result} (h : SameButCount (.fault f) r) : r = .fault f := by
  cases r with
  | next t' => exact h.elim
  | fault f' => exact congrArg _ (Eq.symm h)
  | refused f' => exact h.elim

/-! ### Runs -/

theorem run_succ_eq_next {n : Nat} {s t : State} (h : Sys2Proof.core.run (n + 1) s = .next t) :
    ∃ u, step s = .next u ∧ Sys2Proof.core.run n u = .next t := by
  simp only [Host.Core.run] at h
  split at h
  · next u hstep => exact ⟨u, hstep, h⟩
  · cases h
  · cases h

/-- A halt is final (10_state.md R32), so a run that ends Running began Running. -/
theorem running_of_run_running {n : Nat} {s t : State} (h : Sys2Proof.core.run n s = .next t)
    (ht : t.status = .running) : s.status = .running := by
  cases n with
  | zero => cases h; exact ht
  | succ n =>
    obtain ⟨u, hstep, -⟩ := run_succ_eq_next h
    exact (step_cases hstep).1

/-- `Retired`, for `n` instructions: the counter rose by `n` modulo 2^64 and an attached sink got `n` more records. -/
def RetiredTimes (n : Nat) (s t : State) : Prop :=
  t.instret = s.instret + BitVec.ofNat 64 n ∧
    ∃ more : List TraceRecord, more.length = n ∧ t.trace = s.trace.map (· ++ more)

theorem retiredTimes_zero (s : State) : RetiredTimes 0 s s :=
  ⟨by simp, [], rfl, by simp⟩

theorem Retired.then_times {n : Nat} {s u t : State} (hsu : Retired s u) (hut : RetiredTimes n u t) :
    RetiredTimes (n + 1) s t := by
  obtain ⟨hcount, record, htrace⟩ := hsu
  obtain ⟨hcounts, more, hlength, htraces⟩ := hut
  refine ⟨?_, record :: more, by simp [hlength], ?_⟩
  · rw [hcounts, hcount, Nat.add_comm, BitVec.ofNat_add, BitVec.add_assoc]
    rfl
  · rw [htraces, htrace, Option.map_map]
    simp [Function.comp_def]

theorem run_retiredTimes {n : Nat} {s t : State} (h : Sys2Proof.core.run n s = .next t) (ht : t.status = .running) :
    RetiredTimes n s t := by
  induction n generalizing s with
  | zero => cases h; exact retiredTimes_zero _
  | succ n ih =>
    obtain ⟨u, hstep, hrun⟩ := run_succ_eq_next h
    exact (retired_of_step_running hstep (running_of_run_running hrun ht)).then_times (ih hrun)

/-! ### The statements -/

/-- Settles O13: an error changes the status alone, and an allowed effect keeps each part of the invariant. -/
theorem stepKeepsTheInvariant : Obligations.StepKeepsTheInvariant := by
  unfold Obligations.StepKeepsTheInvariant
  intro s t hs h
  obtain ⟨e, rfl⟩ | ⟨i, e, rfl, ha⟩ := step_raises_or_commits h
  · exact raise_inv hs e
  · exact commit_inv hs ha

/-- Settles O19: the two steps answer the same up to the counter and the trace, and neither is refused. -/
theorem counterAndTraceNeverAffectExecution : Obligations.CounterAndTraceNeverAffectExecution := by
  unfold Obligations.CounterAndTraceNeverAffectExecution
  intro s n tr
  have hsame := step_recount s n tr
  exact ⟨fun t h => sameButCount_next_left (h ▸ hsame), fun f h => sameButCount_fault_left (h ▸ hsame),
    step_not_refused s⟩

/-- Settles O23, by induction on the number of steps. -/
theorem counterCountsTheRetiredInstructions : Obligations.CounterCountsTheRetiredInstructions := by
  unfold Obligations.CounterCountsTheRetiredInstructions
  intro n s t h ht
  obtain ⟨hcount, more, hlength, htrace⟩ := run_retiredTimes h ht
  exact ⟨hcount, fun records hrecords => ⟨more, by simp [htrace, hrecords], hlength⟩⟩

/-- Settles O18: an error leaves the console alone, and the effect of any other instruction does not touch it. -/
theorem onlyEcallUsesConsoleOrHaltsNormally : Obligations.OnlyEcallUsesConsoleOrHaltsNormally := by
  unfold Obligations.OnlyEcallUsesConsoleOrHaltsNormally
  intro i s t hi h
  obtain ⟨e, rfl⟩ | ⟨e, rfl, ha⟩ := exec_cases h
  · exact ⟨⟨rfl, rfl⟩, .inr ⟨e, rfl⟩⟩
  · obtain ⟨hread, hwrite, hhalt⟩ := ha.console hi
    exact ⟨⟨consoleInAfter_of_not_read hread _, consoleOutAfter_of_not_written hwrite _⟩, .inl (by simp [hhalt])⟩

/-- Settles O20: a read after a write is `readReg_write`, and an effect writes at most one register. -/
theorem registerFileReadsAndWrites : Obligations.RegisterFileReadsAndWrites := by
  unfold Obligations.RegisterFileReadsAndWrites
  refine ⟨readReg_zero, fun regs v => rfl, fun s r v hr => ⟨?_, fun q hq => ?_⟩, fun r => ?_, fun s t h => ?_⟩
  · rw [readReg_write (rd := r) (v := v) rfl, if_pos rfl, if_neg hr]
  · rw [readReg_write (rd := r) (v := v) rfl, if_neg hq]
  · simp [State.readReg, State.reset]
  · obtain ⟨e, rfl⟩ | ⟨-, e, rfl, -⟩ := step_raises_or_commits h
    · exact ⟨0, fun r _ => readReg_congr rfl r⟩
    · exact commit_sameRegsExcept s e

/-- Settles O22: the next pc is pc + 4 modulo 2^32, and 0xFFFFFFFC + 4 wraps to 0. -/
theorem pcWrapsAtTheTop : Obligations.PcWrapsAtTheTop := by
  unfold Obligations.PcWrapsAtTheTop
  intro i s t h hc hi hpc
  obtain ⟨e, rfl, ha⟩ := exec_commits_of_instret_ne h hc
  rw [commit_pc, ha.next hi, hpc]
  decide

end Sys2Proof.Machine
end

section
/-! SUPPORT. The proofs of the statements about memory (20_memory.md), with the lemmas they need. -/

namespace Sys2Proof.Machine

/-! ### The canonical form -/

/-- In a canonical memory the cells listed are exactly what the addresses read. -/
theorem mem_iff_read? {m : Memory} (hm : m.wf) (c : Host.Cell) : c ∈ m ↔ Memory.read? m c.1 = some c.2 := by
  obtain ⟨hsorted, -⟩ := hm
  obtain ⟨k, v⟩ := c
  induction m with
  | nil => simp [Memory.read?]
  | cons d rest ih =>
    obtain ⟨a, b⟩ := d
    obtain ⟨hfirst, hrest⟩ := List.pairwise_cons.1 hsorted
    by_cases hk : k = a
    · have hnot : (k, v) ∉ rest := fun hin => (hk ▸ hfirst _ hin).false
      simp [Memory.read?, hk, hk ▸ hnot, eq_comm]
    · simp [Memory.read?, hk, ih hrest]

/-- A canonical memory is determined by its cells, whatever their order. -/
theorem wf_eq_of_mem_iff {m m' : Memory} (hm : m.wf) (hm' : m'.wf) (h : ∀ c, c ∈ m ↔ c ∈ m') : m = m' := by
  have : Std.Asymm fun c d : Host.Cell => c.1 < d.1 := ⟨fun _ _ => Nat.lt_asymm⟩
  exact hm.1.eq_of_mem_iff hm'.1 h

/-! ### What a step can do to memory -/

/-- An instruction that retires changes no byte outside the footprint of a store (45_stores.md R195). -/
theorem exists_footprint_of_commit_byteAt_ne {i : Instr} {s : State} {e : Effect} {b : Word} (ha : Allowed i s e)
    (hb : (s.commit e).byteAt b ≠ s.byteAt b) :
    ∃ a n, storeFootprint s i = some (a, n) ∧ ∃ k < n, b = a + BitVec.ofNat 32 k := by
  cases hw : e.memWrite with
  | none =>
    have hmem : (s.commit e).mem = s.mem := by simp [Effect.memAfter, hw]
    exact (hb (byteAt_congr hmem b)).elim
  | some st =>
    have hmem : (s.commit e).mem = Memory.writeBytes s.mem st.addr (bytesOf st.value st.width) := by
      simp [Effect.memAfter, hw]
    refine ⟨st.addr, st.width.bytes, by simp [← ha.store, hw], ?_⟩
    by_contra hout
    push Not at hout
    exact hb (byteAt_not_written hmem b hout)

/-! ### Reading the bytes of a word -/

/-- The bytes at an address are the low bytes of any value that has them there. -/
theorem bytesAt_eq_low_bytes {s : State} {a v : Word} {w : Width}
    (h : ∀ k < w.bytes, s.byteAt (a + BitVec.ofNat 32 k) = v.extractLsb' (8 * k) 8) :
    s.bytesAt a w = (v.setWidth (8 * w.bytes)).setWidth 32 := by
  cases w with
  | byte =>
    have h0 : s.byteAt a = v.extractLsb' 0 8 := by simpa using h 0 (by decide)
    rw [State.bytesAt, h0, ← BitVec.setWidth_eq_extractLsb' (by decide)]
    rfl
  | half =>
    have h0 : s.byteAt a = v.extractLsb' 0 8 := by simpa using h 0 (by decide)
    have h1 : s.byteAt (a + 1) = v.extractLsb' 8 8 := h 1 (by decide)
    rw [State.bytesAt, h0, h1, BitVec.extractLsb'_append_extractLsb'_eq_extractLsb' (by decide),
      ← BitVec.setWidth_eq_extractLsb' (by decide)]
    rfl
  | word =>
    have hv : WordAt s a v := fun k hk => (h k hk).symm
    rw [wordAt_unique (wordAt_bytesAt s a) hv]
    simp [Width.bytes]

/-- The fetch of a word whose bytes are known. -/
theorem fetch_of_wordAt {s : State} {w : Word} (hp : s.pc.toNat % 4 = 0) (hm : MappedAccess s s.pc 4)
    (hw : WordAt s s.pc w) : s.fetch = .ok w := by
  rw [fetch_ok hp hm, wordAt_unique (wordAt_bytesAt s s.pc) hw]

/-! ### After a store -/

/-- The three stores are one operation, at the width of the instruction. -/
theorem exec_store_eq {i : Instr} {rs1 rs2 : RegIdx} {imm : Word} {n : Nat}
    (hi : i = .sb rs1 rs2 imm ∧ n = 1 ∨ i = .sh rs1 rs2 imm ∧ n = 2 ∨ i = .sw rs1 rs2 imm ∧ n = 4) (s : State) :
    ∃ w : Width, w.bytes = n ∧ exec i s = s.store (s.readReg rs1 + imm) w (s.readReg rs2) := by
  obtain ⟨rfl, rfl⟩ | ⟨rfl, rfl⟩ | ⟨rfl, rfl⟩ := hi
  · exact ⟨.byte, rfl, rfl⟩
  · exact ⟨.half, rfl, rfl⟩
  · exact ⟨.word, rfl, rfl⟩

/-- A load of the width of the store before it, at the same address. -/
theorem load_after_store {i : Instr} {s t : State} {a a' v x : Word} {w : Width} {ext : Word → Word} {rd : RegIdx}
    (hstore : s.store a w v = .next t) (hretired : t.instret ≠ s.instret) (hload : exec i t = t.load a' w ext rd)
    (haddr : a' = a) (hx : ext ((v.setWidth (8 * w.bytes)).setWidth 32) = x) :
    WritesRegister i t rd x (t.pc + 4) := by
  subst haddr
  obtain ⟨haligned, hmapped, rfl⟩ := store_retired hstore hretired
  refine load_writes hload haligned hmapped ?_ rfl
  rw [bytesAt_eq_low_bytes fun k hk => byteAt_written (s := s) rfl hk, hx]

/-! ### The statements -/

/-- Settles O9: each clause is the fetch or decode error of `step`, in the order of its checks. -/
theorem fetchAndDecodeErrorsInOrder : Obligations.FetchAndDecodeErrorsInOrder := by
  unfold Obligations.FetchAndDecodeErrorsInOrder
  intro s hs
  refine ⟨fun hp => ?_, fun hp hm => ?_, fun w hp hm hw hd => ?_⟩
  · exact step_fetch_error hs (fetch_misaligned hp)
  · exact step_fetch_error hs (fetch_unmapped hp hm)
  · exact step_decode_error hs (fetch_of_wordAt hp hm hw) hd

/-- Settles O16: neither an error nor a commit names the parameters. -/
theorem stepKeepsSessionParameters : Obligations.StepKeepsSessionParameters := by
  unfold Obligations.StepKeepsSessionParameters
  intro s t h
  obtain ⟨e, rfl⟩ | ⟨i, e, rfl, -⟩ := step_raises_or_commits h
  · exact raise_params s e
  · exact commit_params s e

/-- Settles O17: an error leaves memory alone, and an allowed effect stores to the instruction's footprint only. -/
theorem onlyStoresChangeMemory : Obligations.OnlyStoresChangeMemory := by
  unfold Obligations.OnlyStoresChangeMemory
  intro s t b h hb
  obtain ⟨-, ⟨e, rfl⟩ | ⟨w, i, -, -, hw, hdecode, hexec⟩⟩ := step_cases h
  · exact (hb (byteAt_congr (raise_mem s e) b)).elim
  · obtain ⟨e, rfl⟩ | ⟨e, rfl, ha⟩ := exec_cases hexec
    · exact (hb (byteAt_congr (raise_mem s e) b)).elim
    · obtain ⟨a, n, hfoot, hin⟩ := exists_footprint_of_commit_byteAt_ne ha hb
      exact ⟨w, i, a, n, hw, hdecode, hfoot, hin⟩

/-- Settles O25: the word fetched has the bytes of memory, and each is the store's or the one of before. -/
theorem nextFetchSeesTheStore : Obligations.NextFetchSeesTheStore := by
  unfold Obligations.NextFetchSeesTheStore
  intro i s t rs1 rs2 imm n hi h hretired hp hm
  obtain ⟨w, rfl, hexec⟩ := exec_store_eq hi s
  obtain ⟨-, -, rfl⟩ := store_retired (hexec ▸ h) hretired
  refine ⟨_, fetch_ok hp hm, fun k hk => ⟨fun j hj hcovered => ?_, fun houtside => ?_⟩⟩
  · rw [wordAt_bytesAt _ _ k hk, hcovered, byteAt_written (s := s) rfl hj]
  · rw [wordAt_bytesAt _ _ k hk, byteAt_not_written (s := s) rfl _ houtside]

/-- Settles O26: the store raises no error, and the word at the next pc is the one it stored. -/
theorem storedInstructionRunsNext : Obligations.StoredInstructionRunsNext := by
  unfold Obligations.StoredInstructionRunsNext
  intro s rs1 rs2 imm i hs hp haddr hm hdecode
  have hp4 : (s.pc + 4).toNat % 4 = 0 := toNat_add_four_mod_four hp
  have hexec : exec (.sw rs1 rs2 imm) s = s.store (s.pc + 4) .word (s.readReg rs2) := by rw [← haddr]; rfl
  refine ⟨_, hexec.trans (store_ok (fun hmis => hmis.2 hp4) hm), rfl, step_exec hs (fetch_of_wordAt hp4 hm ?_) hdecode⟩
  exact fun k hk => (byteAt_written (s := s) (w := .word) rfl hk).symm

/-- Settles O27: memories that read alike list the same cells, and the canonical form fixes their order. -/
theorem canonicalMemoriesThatReadAlikeAreEqual : Obligations.CanonicalMemoriesThatReadAlikeAreEqual := by
  unfold Obligations.CanonicalMemoriesThatReadAlikeAreEqual
  intro m m' hm hm' hread
  exact wf_eq_of_mem_iff hm hm' fun c => by rw [mem_iff_read? hm, mem_iff_read? hm', hread]

/-- Settles O28: the load reads the low bytes of the stored value, and its extension starts from just those. -/
theorem loadAfterStoreReturnsTheStoredValue : Obligations.LoadAfterStoreReturnsTheStoredValue := by
  unfold Obligations.LoadAfterStoreReturnsTheStoredValue
  intro s t rs1 rs2 rd base imm disp haddr hretired
  refine ⟨fun h => ?_, fun h => ⟨?_, ?_⟩, fun h => ⟨?_, ?_⟩⟩
  · exact load_after_store h hretired rfl haddr (by simp [Width.bytes])
  · exact load_after_store h hretired rfl haddr (by simp [zext, Width.bytes])
  · exact load_after_store h hretired rfl haddr (by simp [sext, Width.bytes])
  · exact load_after_store h hretired rfl haddr (by simp [zext, Width.bytes])
  · exact load_after_store h hretired rfl haddr (by simp [sext, Width.bytes])

/-- Settles O29: the jump checks alignment only, and the mapped region is as before at the fetch after it. -/
theorem jumpToUnmappedTargetFailsAtTheNextFetch : Obligations.JumpToUnmappedTargetFailsAtTheNextFetch := by
  unfold Obligations.JumpToUnmappedTargetFailsAtTheNextFetch
  intro s rd imm hs hp hm
  exact ⟨_, transfer_aligned hp, hs, rfl, step_fetch_error hs (fetch_unmapped hp hm)⟩

end Sys2Proof.Machine
end

section
/-! SUPPORT. The proofs of the statements about encoding (30_encoding.md), with the lemmas they need. -/

namespace Sys2Proof

/-! ### The decoder reads back what the encoder writes -/

/-- Every operand is found where its format put it; the immediate, because it is one the format can carry. -/
theorem decode_encode {i : Instr} (h : i.wellFormed = true) : decode (encode i) = .ok i := by
  cases i
  case lui => simp [encode, decode_lui, immU_encodeU, append_u h]
  case auipc => simp [encode, decode_auipc, immU_encodeU, append_u h]
  case jal => simp [encode, decode_jal, immJ_encodeJ, signExtend_j h]
  case jalr => simp [encode, decode_jalr, decodeJalr, immI_encodeI, signExtend_low12 h]
  case beq | bne | blt | bge | bltu | bgeu =>
    simp [encode, decode_branch, decodeBranch, immB_encodeB, signExtend_b h]
  case lb | lh | lw | lbu | lhu => simp [encode, decode_load, decodeLoad, immI_encodeI, signExtend_low12 h]
  case sb | sh | sw => simp [encode, decode_store, decodeStore, immS_encodeS, signExtend_low12 h]
  case addi | slti | sltiu | xori | ori | andi =>
    simp [encode, decode_opImm, decodeOpImm, immI_encodeI, signExtend_low12 h]
  case slli | srli | srai => simp [encode, decode_opImm, decodeOpImm]
  case ecall => rfl
  all_goals simp [encode, decode_op, decodeOp]

theorem decodeBytes_of_decode {w : Word} {i : Instr} (h : decode w = .ok i) (rest : List Byte) :
    decodeBytes ([byteOfWord w 0, byteOfWord w 1, byteOfWord w 2, byteOfWord w 3] ++ rest) = .ok (i, rest) := by
  simp [decodeBytes, wordOfBytes_byteOfWord, h]

/-! ### The encoder gives back the word the decoder accepted -/

section
variable {w : Word} {op : BitVec 7} {f3 : BitVec 3} {f7 : BitVec 7}

theorem encodeI_of_fields (hop : opcodeOf w = op) (h3 : funct3Of w = f3) :
    encodeI (immI w) (rs1Of w) f3 (rdOf w) op = w := by
  rw [← hop, ← h3, encodeI_fields]

theorem encodeS_of_fields (hop : opcodeOf w = op) (h3 : funct3Of w = f3) :
    encodeS (immS w) (rs2Of w) (rs1Of w) f3 op = w := by
  rw [← hop, ← h3, encodeS_fields]

theorem encodeB_of_fields (hop : opcodeOf w = op) (h3 : funct3Of w = f3) :
    encodeB (immB w) (rs2Of w) (rs1Of w) f3 op = w := by
  rw [← hop, ← h3, encodeB_fields]

theorem encodeShift_of_fields (hop : opcodeOf w = op) (h3 : funct3Of w = f3) (h7 : funct7Of w = f7) :
    encodeShift f7 (shamtOf w) (rs1Of w) f3 (rdOf w) op = w := by
  rw [← hop, ← h3, ← h7, encodeShift_fields]

theorem encodeR_of_fields (hop : opcodeOf w = op) (h3 : funct3Of w = f3) (h7 : funct7Of w = f7) :
    encodeR f7 (rs2Of w) (rs1Of w) f3 (rdOf w) op = w := by
  rw [← hop, ← h3, ← h7, encodeR_fields]

theorem encodeU_of_opcode (hop : opcodeOf w = op) : encodeU (immU w) (rdOf w) op = w := by
  rw [← hop, encodeU_fields]

theorem encodeJ_of_opcode (hop : opcodeOf w = op) : encodeJ (immJ w) (rdOf w) op = w := by
  rw [← hop, encodeJ_fields]

end

/-- The instruction is well-formed and the word is its encoding: what the decoder owes to a word it accepts. -/
def Encodes (i : Instr) (w : Word) : Prop := i.wellFormed = true ∧ encode i = w

theorem encodes_of_decodeLoad {w : Word} {i : Instr} (hop : opcodeOf w = 0b0000011#7) (h : decodeLoad w = .ok i) :
    Encodes i w := by
  unfold decodeLoad at h
  split at h <;> cases h
  all_goals exact ⟨fitsImm12_immI w, encodeI_of_fields hop ‹_›⟩

theorem encodes_of_decodeStore {w : Word} {i : Instr} (hop : opcodeOf w = 0b0100011#7) (h : decodeStore w = .ok i) :
    Encodes i w := by
  unfold decodeStore at h
  split at h <;> cases h
  all_goals exact ⟨fitsImm12_immS w, encodeS_of_fields hop ‹_›⟩

theorem encodes_of_decodeBranch {w : Word} {i : Instr} (hop : opcodeOf w = 0b1100011#7)
    (h : decodeBranch w = .ok i) : Encodes i w := by
  unfold decodeBranch at h
  split at h <;> cases h
  all_goals exact ⟨fitsImmB_immB w, encodeB_of_fields hop ‹_›⟩

theorem encodes_of_decodeJalr {w : Word} {i : Instr} (hop : opcodeOf w = 0b1100111#7) (h : decodeJalr w = .ok i) :
    Encodes i w := by
  unfold decodeJalr at h
  split at h <;> cases h
  exact ⟨fitsImm12_immI w, encodeI_of_fields hop ‹_›⟩

theorem encodes_of_decodeOp {w : Word} {i : Instr} (hop : opcodeOf w = 0b0110011#7) (h : decodeOp w = .ok i) :
    Encodes i w := by
  unfold decodeOp at h
  split at h <;> cases h
  all_goals exact ⟨rfl, encodeR_of_fields hop ‹_› ‹_›⟩

theorem encodes_of_decodeOpImm {w : Word} {i : Instr} (hop : opcodeOf w = 0b0010011#7) (h : decodeOpImm w = .ok i) :
    Encodes i w := by
  unfold decodeOpImm at h
  split at h
  case h_2 | h_6 =>
    split at h <;> cases h
    all_goals exact ⟨rfl, encodeShift_of_fields hop ‹_› ‹_›⟩
  all_goals cases h
  all_goals exact ⟨fitsImm12_immI w, encodeI_of_fields hop ‹_›⟩

theorem encodes_of_decodeSystem {w : Word} {i : Instr} (h : decodeSystem w = .ok i) : Encodes i w := by
  unfold decodeSystem at h
  split at h <;> cases h
  exact ⟨rfl, Eq.symm ‹_›⟩

/-- Each major opcode has a decoder of its own, or the U or J format whole. -/
theorem encodes_of_decode {w : Word} {i : Instr} (h : decode w = .ok i) : Encodes i w := by
  unfold decode at h
  split at h
  · exact encodes_of_decodeLoad ‹_› h
  · exact encodes_of_decodeOpImm ‹_› h
  · cases h; exact ⟨fitsImmU_immU w, encodeU_of_opcode ‹_›⟩
  · exact encodes_of_decodeStore ‹_› h
  · exact encodes_of_decodeOp ‹_› h
  · cases h; exact ⟨fitsImmU_immU w, encodeU_of_opcode ‹_›⟩
  · exact encodes_of_decodeBranch ‹_› h
  · exact encodes_of_decodeJalr ‹_› h
  · cases h; exact ⟨fitsImmJ_immJ w, encodeJ_of_opcode ‹_›⟩
  · exact encodes_of_decodeSystem h
  · split at h <;> cases h

/-! ### The opcode table and the decoder agree -/

open Laws in
/-- Every instruction's word matches the row that bears its mnemonic. -/
theorem encodesRow : ∀ i : Instr, EncodesRow.Statement i
  | .lui .. => EncodesRow.lui ..
  | .auipc .. => EncodesRow.auipc ..
  | .jal .. => EncodesRow.jal ..
  | .jalr .. => EncodesRow.jalr ..
  | .beq .. => EncodesRow.beq ..
  | .bne .. => EncodesRow.bne ..
  | .blt .. => EncodesRow.blt ..
  | .bge .. => EncodesRow.bge ..
  | .bltu .. => EncodesRow.bltu ..
  | .bgeu .. => EncodesRow.bgeu ..
  | .lb .. => EncodesRow.lb ..
  | .lh .. => EncodesRow.lh ..
  | .lw .. => EncodesRow.lw ..
  | .lbu .. => EncodesRow.lbu ..
  | .lhu .. => EncodesRow.lhu ..
  | .sb .. => EncodesRow.sb ..
  | .sh .. => EncodesRow.sh ..
  | .sw .. => EncodesRow.sw ..
  | .addi .. => EncodesRow.addi ..
  | .slti .. => EncodesRow.slti ..
  | .sltiu .. => EncodesRow.sltiu ..
  | .xori .. => EncodesRow.xori ..
  | .ori .. => EncodesRow.ori ..
  | .andi .. => EncodesRow.andi ..
  | .slli .. => EncodesRow.slli ..
  | .srli .. => EncodesRow.srli ..
  | .srai .. => EncodesRow.srai ..
  | .add .. => EncodesRow.add ..
  | .sub .. => EncodesRow.sub ..
  | .sll .. => EncodesRow.sll ..
  | .slt .. => EncodesRow.slt ..
  | .sltu .. => EncodesRow.sltu ..
  | .xor .. => EncodesRow.xor ..
  | .srl .. => EncodesRow.srl ..
  | .sra .. => EncodesRow.sra ..
  | .or .. => EncodesRow.or ..
  | .and .. => EncodesRow.and ..
  | .mul .. => EncodesRow.mul ..
  | .mulh .. => EncodesRow.mulh ..
  | .mulhsu .. => EncodesRow.mulhsu ..
  | .mulhu .. => EncodesRow.mulhu ..
  | .div .. => EncodesRow.div ..
  | .divu .. => EncodesRow.divu ..
  | .rem .. => EncodesRow.rem ..
  | .remu .. => EncodesRow.remu ..
  | .ecall => EncodesRow.ecall

theorem exists_row_of_decode {w : Word} {i : Instr} (h : decode w = .ok i) :
    ∃ row ∈ opcodeTable, row.1 = i.mnemonic ∧ rowMatches w row = true := by
  obtain ⟨-, rfl⟩ := encodes_of_decode h
  exact encodesRow i

section
variable {w : Word} {row : String × Word × Word}

theorem exists_decode_of_branchRow (hrow : row ∈ branchRows) (hmask : w &&& row.2.2 = row.2.1) :
    ∃ i, decode w = .ok i := by
  fin_cases hrow
  all_goals
    obtain ⟨hop, h3⟩ := funct3_of_mask hmask
    rw [decode_branch hop, decodeBranch, h3]
    exact ⟨_, rfl⟩

theorem exists_decode_of_loadRow (hrow : row ∈ loadRows) (hmask : w &&& row.2.2 = row.2.1) :
    ∃ i, decode w = .ok i := by
  fin_cases hrow
  all_goals
    obtain ⟨hop, h3⟩ := funct3_of_mask hmask
    rw [decode_load hop, decodeLoad, h3]
    exact ⟨_, rfl⟩

theorem exists_decode_of_storeRow (hrow : row ∈ storeRows) (hmask : w &&& row.2.2 = row.2.1) :
    ∃ i, decode w = .ok i := by
  fin_cases hrow
  all_goals
    obtain ⟨hop, h3⟩ := funct3_of_mask hmask
    rw [decode_store hop, decodeStore, h3]
    exact ⟨_, rfl⟩

/-- The three shifts, the last of the rows, are the ones whose masks keep funct7. -/
theorem exists_decode_of_aluImmRow (hrow : row ∈ aluImmRows) (hmask : w &&& row.2.2 = row.2.1) :
    ∃ i, decode w = .ok i := by
  obtain himm | hshift := List.mem_append.1 (show row ∈ aluImmRows.take 6 ++ aluImmRows.drop 6 from hrow)
  · fin_cases himm
    all_goals
      obtain ⟨hop, h3⟩ := funct3_of_mask hmask
      rw [decode_opImm hop, decodeOpImm, h3]
      exact ⟨_, rfl⟩
  · fin_cases hshift
    all_goals
      obtain ⟨hop, h3, h7⟩ := funct7_of_mask hmask
      rw [decode_opImm hop, decodeOpImm, h3, h7]
      exact ⟨_, rfl⟩

/-- OP has the rows of two families. -/
theorem exists_decode_of_opRow (hrow : row ∈ aluRegRows ++ mulDivRows) (hmask : w &&& row.2.2 = row.2.1) :
    ∃ i, decode w = .ok i := by
  fin_cases hrow
  all_goals
    obtain ⟨hop, h3, h7⟩ := funct7_of_mask hmask
    rw [decode_op hop, decodeOp, h3, h7]
    exact ⟨_, rfl⟩

/-- A row's mask keeps the fields its major opcode's decoder looks at, so a word that matches is decoded. -/
theorem exists_decode_of_rowMatches (hrow : row ∈ opcodeTable) (h : rowMatches w row = true) :
    ∃ i, decode w = .ok i := by
  have hmask : w &&& row.2.2 = row.2.1 := eq_of_beq h
  simp only [opcodeTable, List.mem_append] at hrow
  obtain (((((((hupper | hjump) | hbranch) | hload) | hstore) | himm) | hreg) | hmul) | hsystem := hrow
  · fin_cases hupper
    · exact ⟨_, decode_lui (opcode_of_mask hmask)⟩
    · exact ⟨_, decode_auipc (opcode_of_mask hmask)⟩
  · fin_cases hjump
    · exact ⟨_, decode_jal (opcode_of_mask hmask)⟩
    · obtain ⟨hop, h3⟩ := funct3_of_mask hmask
      rw [decode_jalr hop, decodeJalr, h3]
      exact ⟨_, rfl⟩
  · exact exists_decode_of_branchRow hbranch hmask
  · exact exists_decode_of_loadRow hload hmask
  · exact exists_decode_of_storeRow hstore hmask
  · exact exists_decode_of_aluImmRow himm hmask
  · exact exists_decode_of_opRow (List.mem_append_left _ hreg) hmask
  · exact exists_decode_of_opRow (List.mem_append_right _ hmul) hmask
  · fin_cases hsystem
    obtain rfl : w = 0x00000073 := BitVec.and_allOnes.symm.trans hmask
    exact ⟨_, rfl⟩

end

theorem not_isDecodeError_iff {w : Word} : ¬ IsDecodeError w ↔ ∃ i, decode w = .ok i := by
  unfold IsDecodeError
  cases decode w <;> simp

theorem isDecodeError_iff {w : Word} : IsDecodeError w ↔ ∀ row ∈ opcodeTable, rowMatches w row = false := by
  rw [← not_iff_not, not_isDecodeError_iff]
  constructor
  · rintro ⟨i, hdecode⟩ hnone
    obtain ⟨row, hrow, -, hmatch⟩ := exists_row_of_decode hdecode
    exact Bool.false_ne_true ((hnone row hrow).symm.trans hmatch)
  · intro hsome
    push Not at hsome
    obtain ⟨row, hrow, hmatch⟩ := hsome
    exact exists_decode_of_rowMatches hrow (Bool.eq_true_of_not_eq_false hmatch)

/-! ### Major opcodes -/

/-- The assigned major opcodes (30_encoding.md R90). -/
def majorOpcodes : List (BitVec 7) := [0x03, 0x13, 0x17, 0x23, 0x33, 0x37, 0x63, 0x67, 0x6F, 0x73]

theorem isDecodeError_of_unassigned {w : Word} (h : opcodeOf w ∉ majorOpcodes) : IsDecodeError w := by
  unfold IsDecodeError decode
  split
  case h_11 => split <;> exact ⟨_, rfl⟩
  all_goals simp [majorOpcodes, *] at h

theorem low_bits_of_majorOpcodes : ∀ op ∈ majorOpcodes, op.extractLsb' 0 2 = 0b11#2 := by decide

theorem opcodeOf_low_bits (w : Word) : (opcodeOf w).extractLsb' 0 2 = w.extractLsb' 0 2 := by
  rw [opcodeOf, ← BitVec.setWidth_eq_extractLsb' (show 7 ≤ 32 by decide),
    BitVec.extractLsb'_setWidth_of_le (by decide)]

/-! ### The rows of the opcode table -/

/-- Two rows that no word matches together: in the bits both masks keep, their match values differ. -/
def RowsConflict (row row' : String × Word × Word) : Prop := row.2.1 &&& row'.2.2 ≠ row'.2.1 &&& row.2.2

theorem opcodeTable_pairwise_conflict : opcodeTable.Pairwise RowsConflict := by
  unfold RowsConflict
  decide

theorem symm_rowsConflict : Std.Symm RowsConflict := ⟨fun _ _ => Ne.symm⟩

theorem not_rowsConflict_of_rowMatches {w : Word} {row row' : String × Word × Word} (h : rowMatches w row = true)
    (h' : rowMatches w row' = true) : ¬ RowsConflict row row' := by
  rw [RowsConflict, ← eq_of_beq h, ← eq_of_beq h', BitVec.and_assoc, BitVec.and_assoc, BitVec.and_comm row.2.2]
  exact not_not_intro rfl

/-! ### Immediates, bit by bit -/

/-- From its last bit on, a sign extension repeats that bit. -/
theorem getLsbD_signExtend_succ {n : Nat} (x : BitVec (n + 1)) {k : Nat} (hk : k < 32) :
    (x.signExtend 32).getLsbD k = if k < n then x.getLsbD k else x.getLsbD n := by
  rw [BitVec.getLsbD_signExtend, BitVec.msb_eq_getLsbD_last]
  grind

theorem getLsbD_immI (w : Word) {k : Nat} (hk : k < 32) :
    (immI w).getLsbD k = if k < 11 then w.getLsbD (20 + k) else w.getLsbD 31 := by
  rw [immI, getLsbD_signExtend_succ _ hk]
  simp only [BitVec.getLsbD_extractLsb']
  grind

theorem getLsbD_immS (w : Word) {k : Nat} (hk : k < 32) :
    (immS w).getLsbD k =
      if k < 5 then w.getLsbD (7 + k) else if k < 11 then w.getLsbD (20 + k) else w.getLsbD 31 := by
  rw [immS, getLsbD_signExtend_succ _ hk]
  simp only [BitVec.getLsbD_append, BitVec.getLsbD_extractLsb']
  grind

theorem getLsbD_immU (w : Word) {k : Nat} (hk : k < 32) :
    (immU w).getLsbD k = if k < 12 then false else w.getLsbD k := by
  rw [immU]
  show BitVec.getLsbD (w := 20 + 12) _ _ = _
  rw [BitVec.getLsbD_append, BitVec.getLsbD_extractLsb']
  grind

theorem getLsbD_immB (w : Word) {k : Nat} (hk : k < 32) :
    (immB w).getLsbD k = if k = 0 then false else if k < 5 then w.getLsbD (7 + k) else if k < 11 then w.getLsbD (20 + k)
      else if k = 11 then w.getLsbD 7 else w.getLsbD 31 := by
  rw [immB, getLsbD_signExtend_succ (n := 12) _ hk]
  simp only [BitVec.getLsbD_append, BitVec.getLsbD_extractLsb']
  grind

theorem getLsbD_immJ (w : Word) {k : Nat} (hk : k < 32) :
    (immJ w).getLsbD k = if k = 0 then false else if k < 11 then w.getLsbD (20 + k) else if k = 11 then w.getLsbD 20
       else if k < 20 then w.getLsbD k else w.getLsbD 31 := by
  rw [immJ, getLsbD_signExtend_succ (n := 20) _ hk]
  simp only [BitVec.getLsbD_append, BitVec.getLsbD_extractLsb']
  grind

theorem toInt_immB_bounds (w : Word) : -4096 ≤ (immB w).toInt ∧ (immB w).toInt ≤ 4094 := by
  have h := fitsImmB_immB w
  simp only [fitsImmB, Bool.and_eq_true, decide_eq_true_eq] at h
  exact h.1

theorem toInt_immJ_bounds (w : Word) : -1048576 ≤ (immJ w).toInt ∧ (immJ w).toInt ≤ 1048574 := by
  have h := fitsImmJ_immJ w
  simp only [fitsImmJ, Bool.and_eq_true, decide_eq_true_eq] at h
  exact h.1

/-! ### ECALL -/

/-- ECALL is the one word of its major opcode (30_encoding.md R97). -/
theorem isDecodeError_of_system {w : Word} (hop : opcodeOf w = 0b1110011#7) (hw : w ≠ 0x00000073#32) :
    IsDecodeError w :=
  ⟨.notEcall, by rw [decode_system hop, decodeSystem, if_neg hw]⟩

end Sys2Proof

namespace Sys2Proof.Machine

/-- What call 1 does with the byte it takes (49_system.md R272). -/
def State.readsConsole (s : State) (b : Byte) : Effect :=
  { regWrite := some (a0, b.signExtend 32), consoleRead := true, nextPc := s.nextPc }

theorem exec_ecall_read {s : State} {b : Byte} {rest : List Byte} (hcall : s.readReg a7 = 1)
    (hin : s.consoleIn = b :: rest) : exec .ecall s = .next (s.commit (s.readsConsole b)) := by
  show execEcall s = _
  rw [execEcall, if_pos hcall, State.consoleReadCall, hin]
  rfl

theorem readReg_a0_readsConsole (s : State) (b : Byte) :
    (s.commit (s.readsConsole b)).readReg a0 = b.signExtend 32 := by
  rw [readReg_write (rd := a0) rfl, if_pos rfl, if_neg (by decide)]

theorem consoleIn_readsConsole {s : State} {b : Byte} {rest : List Byte} (hin : s.consoleIn = b :: rest) :
    (s.commit (s.readsConsole b)).consoleIn = rest := by
  simp [State.readsConsole, hin]

theorem ecallFrame_readsConsole (s : State) (b : Byte) : EcallFrame s (s.commit (s.readsConsole b)) := by
  refine ⟨fun r hr => ?_, rfl, retired_commit .., byteAt_congr rfl, rfl⟩
  rw [readReg_write (rd := a0) rfl, if_neg hr]

end Sys2Proof.Machine

namespace Sys2Proof

open Sys2Proof.Machine

/-! ### The statements -/

/-- Settles O1: the decoder finds the operands in the encoder's word, and its four bytes make that word again. -/
theorem decodeOfEncodeGivesTheInstruction : Obligations.DecodeOfEncodeGivesTheInstruction := by
  unfold Obligations.DecodeOfEncodeGivesTheInstruction
  exact fun i h => ⟨decode_encode h, decodeBytes_of_decode (decode_encode h)⟩

/-- Settles O2: in every row the decoder accepts, the fields it read make up the word. -/
theorem encodeOfDecodeGivesTheWord : Obligations.EncodeOfDecodeGivesTheWord := by
  unfold Obligations.EncodeOfDecodeGivesTheWord
  exact fun w i h => encodes_of_decode h

/-- Settles O3: the decoder and the table agree on each row, and the words named have no assigned major opcode. -/
theorem decodeErrorExactlyWhenNoRowMatches : Obligations.DecodeErrorExactlyWhenNoRowMatches := by
  unfold Obligations.DecodeErrorExactlyWhenNoRowMatches
  refine ⟨fun w => isDecodeError_iff, fun w i => exists_row_of_decode, fun w hlow => ?_, fun w hop => ?_,
    isDecodeError_of_unassigned (by decide), isDecodeError_of_unassigned (by decide)⟩
  · refine isDecodeError_of_unassigned fun hmem => hlow ?_
    rw [← opcodeOf_low_bits, low_bits_of_majorOpcodes _ hmem]
  · exact isDecodeError_of_unassigned ((by decide : ∀ op ∈ _, op ∉ majorOpcodes) _ hop)

/-- Settles O4: any two rows of the table conflict, and no word matches two rows that do. -/
theorem opcodeRowsAreDisjoint : Obligations.OpcodeRowsAreDisjoint := by
  unfold Obligations.OpcodeRowsAreDisjoint
  refine ⟨rfl, fun w row hrow row' hrow' h h' => ?_⟩
  have := symm_rowsConflict
  by_contra hne
  exact not_rowsConflict_of_rowMatches h h' (opcodeTable_pairwise_conflict.forall hrow hrow' hne)

/-- Settles O5: a sign extension of extracted bits, read one bit at a time. -/
theorem immediatesOfFormatsIAndSAndU : Obligations.ImmediatesOfFormatsIAndSAndU := by
  unfold Obligations.ImmediatesOfFormatsIAndSAndU
  exact fun w k hk => ⟨getLsbD_immI w hk, getLsbD_immS w hk, getLsbD_immU w hk⟩

/-- Settles O6: the bits as for O5, and the ranges are those the formats can carry. -/
theorem immediatesOfFormatsBAndJ : Obligations.ImmediatesOfFormatsBAndJ := by
  unfold Obligations.ImmediatesOfFormatsBAndJ
  exact ⟨fun w k hk => ⟨getLsbD_immB w hk, getLsbD_immJ w hk⟩,
    fun w => ⟨toInt_immB_bounds w, toInt_immJ_bounds w⟩⟩

/-- Settles O7: the decoder evaluates to the answer on each of these closed words. -/
theorem sampleWordsDecode : Obligations.SampleWordsDecode := by
  unfold Obligations.SampleWordsDecode
  exact ⟨rfl, rfl, rfl, rfl, rfl, rfl, rfl, rfl, rfl, rfl, ⟨_, rfl⟩, ⟨_, rfl⟩, ⟨_, rfl⟩⟩

/-- Settles O50: the SYSTEM decoder accepts one word, and call 1 commits one effect. -/
theorem ecallReadsACharacter : Obligations.EcallReadsACharacter := by
  unfold Obligations.EcallReadsACharacter
  refine ⟨fun w hop => ⟨?_, isDecodeError_of_system hop⟩, fun s b rest hcall hin => ?_⟩
  · rintro rfl
    exact rfl
  · exact ⟨_, exec_ecall_read hcall hin, readReg_a0_readsConsole s b, consoleIn_readsConsole hin, rfl, rfl,
      ecallFrame_readsConsole s b⟩

end Sys2Proof
end

section
/-! SUPPORT. The proofs of the statements about dispatch and step (40_dispatch_and_step.md), with the lemmas they need. -/

namespace Sys2Proof.Machine

/-! ### How a step ends -/

/-- No effect records an error in the status: it is `raise` alone that does. -/
theorem commit_running_or_haltedNormal {s : State} (hs : s.status = .running) (e : Effect) :
    (s.commit e).status = .running ∨ (s.commit e).status = .haltedNormal := by
  cases hhalt : e.halt
  · exact .inl (by simp [hhalt, hs])
  · exact .inr (by simp [hhalt])

/-- `step_raises_or_commits` without the effect: a commit retires one instruction, and its status records no error. -/
theorem step_raises_or_retires {s t : State} (h : step s = .next t) :
    (∃ e, t = s.raise e) ∨ (Retired s t ∧ (t.status = .running ∨ t.status = .haltedNormal)) := by
  obtain ⟨hs, -⟩ := step_cases h
  obtain ⟨e, rfl⟩ | ⟨-, e, rfl, -⟩ := step_raises_or_commits h
  · exact .inl ⟨e, rfl⟩
  · exact .inr ⟨retired_commit s e, commit_running_or_haltedNormal hs e⟩

/-! ### Where a branch goes -/

/-- The six branches are one operation, under the condition of the instruction. -/
theorem exec_branch_eq {i : Instr} {rs1 rs2 : RegIdx} {imm : Word}
    (hi : i = .beq rs1 rs2 imm ∨ i = .bne rs1 rs2 imm ∨ i = .blt rs1 rs2 imm ∨ i = .bge rs1 rs2 imm ∨
      i = .bltu rs1 rs2 imm ∨ i = .bgeu rs1 rs2 imm) (s : State) : ∃ cond, exec i s = branchOn cond imm s := by
  obtain rfl | rfl | rfl | rfl | rfl | rfl := hi <;> exact ⟨_, rfl⟩

/-- A transfer that moved the counter found its target aligned, and went there. -/
theorem transfer_retired_pc {s t : State} {kind : TransferKind} {target : Word} {rw : Option (RegIdx × Word)}
    (h : s.transfer kind target rw = .next t) (hretired : t.instret ≠ s.instret) : t.pc = target := by
  by_cases haligned : target.toNat % 4 = 0
  · rw [transfer_aligned haligned] at h; cases h; rfl
  · rw [transfer_misaligned haligned] at h; cases h; exact (hretired rfl).elim

/-- A branch that moved the counter was taken, to its target, or not, to pc + 4 (43_branches.md R160). -/
theorem branchOn_retired_pc {s t : State} {cond : Bool} {imm : Word} (h : branchOn cond imm s = .next t)
    (hretired : t.instret ≠ s.instret) : t.pc = s.pc + 4 ∨ t.pc = s.pc + imm := by
  unfold branchOn at h
  split at h
  · exact .inr (transfer_retired_pc h hretired)
  · cases h; exact .inl rfl

/-! ### The statements -/

/-- Settles O10: a step that ends in an error raised it, for a retired instruction leaves the status Running or
Halted(normal). -/
theorem failedInstructionIsNeverSkipped : Obligations.FailedInstructionIsNeverSkipped := by
  unfold Obligations.FailedInstructionIsNeverSkipped
  refine ⟨fun s t e h ht => ?_, fun s w hs hp hm hw hd => ?_⟩
  · obtain ⟨e', rfl⟩ | ⟨-, hrunning | hnormal⟩ := step_raises_or_retires h
    · exact ⟨raise_pc s e', step_halted (by simp)⟩
    · cases hrunning.symm.trans ht
    · cases hnormal.symm.trans ht
  · exact ⟨_, _, step_decode_error hs (fetch_of_wordAt hp hm hw) hd, raise_status ..⟩

/-- Settles O12: an error changes the status alone, and every commit retires one instruction. -/
theorem stepRetiresOrHaltsPrecisely : Obligations.StepRetiresOrHaltsPrecisely := by
  unfold Obligations.StepRetiresOrHaltsPrecisely
  exact fun s t h => step_raises_or_retires h

/-- Settles O21: an instruction that retires committed an effect, whose next pc only a transfer of control chooses; the
branches choose between pc + 4 and their target. -/
theorem nextPcIsPcPlusFourByDefault : Obligations.NextPcIsPcPlusFourByDefault := by
  unfold Obligations.NextPcIsPcPlusFourByDefault
  intro i s t h hretired
  refine ⟨fun hi => ?_, fun rs1 rs2 imm hi => ?_⟩
  · obtain ⟨e, rfl, ha⟩ := exec_commits_of_instret_ne h hretired
    exact ha.next hi
  · obtain ⟨cond, hexec⟩ := exec_branch_eq hi s
    exact branchOn_retired_pc (hexec ▸ h) hretired

/-- Settles O8: the word at the pc is the one fetched, and `step` is `exec` of what it decodes to. -/
theorem stepRunsTheDecodedInstruction : Obligations.StepRunsTheDecodedInstruction := by
  unfold Obligations.StepRunsTheDecodedInstruction
  intro s w i hs hp hm hw hd
  exact step_exec hs (fetch_of_wordAt hp hm hw) hd

/-- Settles O11: `step` looks at the status first. -/
theorem haltedIsFinal : Obligations.HaltedIsFinal := by
  unfold Obligations.HaltedIsFinal
  exact fun s hs => step_halted hs

end Sys2Proof.Machine
end

section
/-! SUPPORT. The proof of the statement about the upper immediates (41_upper_immediate.md), with the lemmas it needs. -/

namespace Sys2Proof

/-- A drawn word that is the encoding of a well-formed instruction decodes to it. -/
theorem decodesTo_of_eq_encode {w : Word} {i : Instr} (hw : w = encode i) (hi : i.wellFormed = true) :
    DecodesTo w i := by
  subst hw
  exact decode_encode hi

theorem decodesTo_lui (imm20 : BitVec 20) (rd : RegIdx) :
    DecodesTo (uForm imm20 rd 0b0110111) (.lui rd (imm20 ++ 0#12)) :=
  decodesTo_of_eq_encode (uForm_eq imm20 rd _) (fitsImmU_append imm20)

theorem decodesTo_auipc (imm20 : BitVec 20) (rd : RegIdx) :
    DecodesTo (uForm imm20 rd 0b0010111) (.auipc rd (imm20 ++ 0#12)) :=
  decodesTo_of_eq_encode (uForm_eq imm20 rd _) (fitsImmU_append imm20)

end Sys2Proof

namespace Sys2Proof.Machine

theorem exec_lui (rd : RegIdx) (imm : Word) (s : State) : exec (.lui rd imm) s = s.retireReg rd imm := rfl

/-- The pc added is that of the AUIPC itself (R141): the state is the one before the commit. -/
theorem exec_auipc (rd : RegIdx) (imm : Word) (s : State) : exec (.auipc rd imm) s = s.retireReg rd (imm + s.pc) := rfl

/-- Settles O30: the drawn words are the encoder's, and both instructions retire with one register write. -/
theorem luiAndAuipc : Obligations.LuiAndAuipc := by
  unfold Obligations.LuiAndAuipc
  refine ⟨fun imm20 rd => ⟨decodesTo_lui imm20 rd, decodesTo_auipc imm20 rd⟩, fun s rd imm => ⟨?_, ?_⟩⟩
  · exact retireReg_writes (exec_lui rd imm s) rfl rfl
  · exact retireReg_writes (exec_auipc rd imm s) rfl rfl

end Sys2Proof.Machine
end

section
/-! SUPPORT. The proofs of the statements about the jumps (42_jumps.md), with the lemmas they need. -/

namespace Sys2Proof

/-! ### The words of JAL and JALR -/

theorem decodesTo_jal (off : BitVec 20) (rd : RegIdx) :
    DecodesTo (jForm (off ++ 0#1) rd 0b1101111) (.jal rd ((off ++ 0#1).signExtend 32)) :=
  decodesTo_of_eq_encode (jForm_eq (off ++ 0#1) rd _) (fitsImmJ_signExtend off)

theorem decodesTo_jalr (imm : BitVec 12) (rs1 rd : RegIdx) :
    DecodesTo (iForm imm rs1 0b000 rd 0b1100111) (.jalr rd rs1 (imm.signExtend 32)) :=
  decodesTo_of_eq_encode (iForm_eq imm rs1 _ rd _) (fitsImm12_signExtend imm)

/-- JALR is the one instruction of its major opcode (30_encoding.md R96). -/
theorem isDecodeError_of_jalr_funct3 {w : Word} (hop : opcodeOf w = 0b1100111#7)
    (h3 : funct3Of w ≠ 0b000#3) : IsDecodeError w := by
  refine ⟨.unknownFunct3, ?_⟩
  rw [decode_jalr hop, decodeJalr]
  split
  · contradiction
  · rfl

/-! ### The target of JALR -/

/-- Clearing bit 0 of a word (42_jumps.md R151) rounds it down to even: both halve it and double the half. -/
theorem and_clear_bit_zero (a : Word) : a &&& 0xFFFFFFFE#32 = BitVec.ofNat 32 (a.toNat - a.toNat % 2) := by
  have hhalves : a &&& 0xFFFFFFFE#32 = a >>> 1 <<< 1 := by rw [BitVec.shiftLeft_ushiftRight]; rfl
  apply BitVec.eq_of_toNat_eq
  rw [hhalves, BitVec.toNat_shiftLeft, BitVec.toNat_ushiftRight, Nat.shiftLeft_eq, Nat.shiftRight_eq_div_pow,
    BitVec.toNat_ofNat]
  omega

end Sys2Proof

namespace Sys2Proof.Machine

/-! ### What a jump does -/

theorem exec_jal (rd : RegIdx) (imm : Word) (s : State) :
    exec (.jal rd imm) s = s.transfer .jump (s.pc + imm) (some (rd, s.pc + 4)) := rfl

/-- The target is computed in the state before rd is written (the spec's decision D15). -/
theorem exec_jalr (rd rs1 : RegIdx) (imm : Word) (s : State) :
    exec (.jalr rd rs1 imm) s = s.transfer .jump (indirectTarget s rs1 imm) (some (rd, s.pc + 4)) := rfl

theorem indirectTarget_eq (s : State) (rs1 : RegIdx) (imm : Word) :
    indirectTarget s rs1 imm =
      BitVec.ofNat 32 ((s.readReg rs1 + imm).toNat - (s.readReg rs1 + imm).toNat % 2) :=
  and_clear_bit_zero _

/-- The error comes at the transfer itself, before the link is written (the spec's decision D4). -/
theorem transfer_halts {i : Instr} {s : State} {kind : TransferKind} {target : Word} {rw : Option (RegIdx × Word)}
    (h : exec i s = s.transfer kind target rw) (ht : target.toNat % 4 ≠ 0) :
    HaltsWith i s (.instructionAddressMisaligned kind target) :=
  h.trans (transfer_misaligned ht)

/-! ### The statements -/

/-- Settles O32: the drawn word is the encoder's and a word with another funct3 is refused; the target is the sum
with bit 0 cleared, and a jump there links or halts as any transfer does. -/
theorem jalrLinksAndJumps : Obligations.JalrLinksAndJumps := by
  unfold Obligations.JalrLinksAndJumps
  refine ⟨fun imm rs1 rd funct3 => ⟨decodesTo_jalr imm rs1 rd, fun hfunct3 => ?_⟩, fun s rd rs1 imm => ?_⟩
  · rw [iForm_eq]
    exact isDecodeError_of_jalr_funct3 (opcodeOf_encodeI ..) (by rwa [funct3Of_encodeI])
  · simp only [← indirectTarget_eq]
    exact ⟨transfer_links (exec_jalr rd rs1 imm s), transfer_halts (exec_jalr rd rs1 imm s)⟩

/-- Settles O31: the drawn word is the encoder's, and a jump to pc plus the immediate links or halts as any
transfer does. -/
theorem jalLinksAndJumps : Obligations.JalLinksAndJumps := by
  unfold Obligations.JalLinksAndJumps
  exact ⟨decodesTo_jal, fun s rd imm => ⟨transfer_links (exec_jal rd imm s), transfer_halts (exec_jal rd imm s)⟩⟩

end Sys2Proof.Machine
end

section
/-! SUPPORT. The proofs of the statements about the branches (43_branches.md), with the lemmas they need. -/

namespace Sys2Proof

/-- The six branches share one format and differ in funct3 alone: an instruction that the encoder writes in that format
is what the drawn word decodes to. -/
theorem decodesTo_branch {i : Instr} {off : BitVec 12} {rs1 rs2 : RegIdx} {f3 : BitVec 3}
    (henc : encode i = encodeB ((off ++ 0#1).signExtend 32) rs2 rs1 f3 0b1100011)
    (hwf : i.wellFormed = fitsImmB ((off ++ 0#1).signExtend 32)) :
    DecodesTo (bForm (off ++ 0#1) rs2 rs1 f3 0b1100011) i :=
  decodesTo_of_eq_encode ((bForm_eq ..).trans henc.symm) (hwf.trans (fitsImmB_signExtend off))

end Sys2Proof

namespace Sys2Proof.Machine

/-! ### The conditions -/

theorem lessSigned_iff {a b : Word} : lessSigned a b = true ↔ a.toInt < b.toInt := decide_eq_true_iff

theorem lessUnsigned_iff {a b : Word} : lessUnsigned a b = true ↔ a.toNat < b.toNat := decide_eq_true_iff

theorem not_lessSigned_iff {a b : Word} : (!lessSigned a b) = true ↔ a.toInt ≥ b.toInt := by
  rw [Bool.not_eq_true', ← Bool.not_eq_true, lessSigned_iff, not_lt]

theorem not_lessUnsigned_iff {a b : Word} : (!lessUnsigned a b) = true ↔ a.toNat ≥ b.toNat := by
  rw [Bool.not_eq_true', ← Bool.not_eq_true, lessUnsigned_iff, not_lt]

/-! ### Each branch is `branchOn` under its own condition -/

section
variable (rs1 rs2 : RegIdx) (imm : Word) (s : State)

theorem exec_beq : exec (.beq rs1 rs2 imm) s = branchOn (s.readReg rs1 == s.readReg rs2) imm s := rfl

theorem exec_bne : exec (.bne rs1 rs2 imm) s = branchOn (s.readReg rs1 != s.readReg rs2) imm s := rfl

theorem exec_blt : exec (.blt rs1 rs2 imm) s = branchOn (lessSigned (s.readReg rs1) (s.readReg rs2)) imm s := rfl

theorem exec_bge : exec (.bge rs1 rs2 imm) s = branchOn (!lessSigned (s.readReg rs1) (s.readReg rs2)) imm s := rfl

theorem exec_bltu : exec (.bltu rs1 rs2 imm) s = branchOn (lessUnsigned (s.readReg rs1) (s.readReg rs2)) imm s := rfl

theorem exec_bgeu : exec (.bgeu rs1 rs2 imm) s = branchOn (!lessUnsigned (s.readReg rs1) (s.readReg rs2)) imm s := rfl

end

/-! ### The statements -/

/-- Settles O33: the drawn words are the encoder's, and the Boolean each branch is decided by says that the registers
are equal, or that they differ. -/
theorem beqAndBne : Obligations.BeqAndBne := by
  unfold Obligations.BeqAndBne
  refine ⟨fun off rs1 rs2 => ⟨decodesTo_branch rfl rfl, decodesTo_branch rfl rfl⟩, fun s rs1 rs2 imm => ⟨?_, ?_⟩⟩
  · exact branchOn_branches (exec_beq rs1 rs2 imm s) beq_iff_eq
  · exact branchOn_branches (exec_bne rs1 rs2 imm s) bne_iff_ne

/-- Settles O34: as for O33, with the comparison of the two's-complement values and its negation. -/
theorem bltAndBge : Obligations.BltAndBge := by
  unfold Obligations.BltAndBge
  refine ⟨fun off rs1 rs2 => ⟨decodesTo_branch rfl rfl, decodesTo_branch rfl rfl⟩, fun s rs1 rs2 imm => ⟨?_, ?_⟩⟩
  · exact branchOn_branches (exec_blt rs1 rs2 imm s) lessSigned_iff
  · exact branchOn_branches (exec_bge rs1 rs2 imm s) not_lessSigned_iff

/-- Settles O35: as for O33, with the comparison of the unsigned values and its negation. -/
theorem bltuAndBgeu : Obligations.BltuAndBgeu := by
  unfold Obligations.BltuAndBgeu
  refine ⟨fun off rs1 rs2 => ⟨decodesTo_branch rfl rfl, decodesTo_branch rfl rfl⟩, fun s rs1 rs2 imm => ⟨?_, ?_⟩⟩
  · exact branchOn_branches (exec_bltu rs1 rs2 imm s) lessUnsigned_iff
  · exact branchOn_branches (exec_bgeu rs1 rs2 imm s) not_lessUnsigned_iff

end Sys2Proof.Machine
end

section
/-! SUPPORT. The proofs of the statements about the loads (44_loads.md), with the lemmas they need. -/

namespace Sys2Proof

/-! ### The words and the extensions -/

/-- An instruction that the encoder writes in the I format is what the drawn word decodes to. -/
theorem decodesTo_iForm {i : Instr} {imm : BitVec 12} {rs1 rd : RegIdx} {f3 : BitVec 3} {op : BitVec 7}
    (henc : encode i = encodeI (imm.signExtend 32) rs1 f3 rd op)
    (hwf : i.wellFormed = fitsImm12 (imm.signExtend 32)) : DecodesTo (iForm imm rs1 f3 rd op) i :=
  decodesTo_of_eq_encode ((iForm_eq ..).trans henc.symm) (hwf.trans (fitsImm12_signExtend imm))

/-- An extension is given the bytes of an access zero-extended to a word (20_memory.md R55) and keeps just them. -/
theorem sext_setWidth {n : Nat} (hn : n ≤ 32) (x : BitVec n) : sext n (x.setWidth 32) = x.signExtend 32 := by
  rw [sext, BitVec.setWidth_setWidth_of_le x hn, BitVec.setWidth_eq]

theorem zext_setWidth {n : Nat} (hn : n ≤ 32) (x : BitVec n) : zext n (x.setWidth 32) = x.setWidth 32 := by
  rw [zext, BitVec.setWidth_setWidth_of_le x hn, BitVec.setWidth_eq]

end Sys2Proof

namespace Sys2Proof.Machine

/-! ### Each load is `State.load` at its own width and extension -/

section
variable (rd rs1 : RegIdx) (imm : Word) (s : State)

theorem exec_lb : exec (.lb rd rs1 imm) s = s.load (s.readReg rs1 + imm) .byte (sext 8) rd := rfl

theorem exec_lh : exec (.lh rd rs1 imm) s = s.load (s.readReg rs1 + imm) .half (sext 16) rd := rfl

theorem exec_lw : exec (.lw rd rs1 imm) s = s.load (s.readReg rs1 + imm) .word id rd := rfl

theorem exec_lbu : exec (.lbu rd rs1 imm) s = s.load (s.readReg rs1 + imm) .byte (zext 8) rd := rfl

theorem exec_lhu : exec (.lhu rd rs1 imm) s = s.load (s.readReg rs1 + imm) .half (zext 16) rd := rfl

end

/-! ### The errors of a load, in their order (60_exceptions.md R309), and the byte loads that skip the first -/

section
variable {i : Instr} {s : State} {a v : Word} {w : Width} {ext : Word → Word} {rd : RegIdx}

theorem load_halts_misaligned (h : exec i s = s.load a w ext rd) (hmis : MisalignedUnderFault s a w.bytes) :
    HaltsWith i s (.misalignedDataAccess .load a) :=
  load_halts h (accessError_misaligned hmis)

theorem load_halts_unmapped (h : exec i s = s.load a w ext rd) (hmis : ¬ MisalignedUnderFault s a w.bytes)
    (hmap : ¬ MappedAccess s a w.bytes) : HaltsWith i s (.memoryAccessError .load a) :=
  load_halts h (accessError_unmapped hmis hmap)

theorem byte_load_halts (h : exec i s = s.load a .byte ext rd) (hmap : ¬ MappedByte s a) :
    HaltsWith i s (.memoryAccessError .load a) :=
  load_halts_unmapped h not_misaligned_one (mt mappedAccess_one.1 hmap)

theorem byte_load_writes (h : exec i s = s.load a .byte ext rd) (hmap : MappedByte s a)
    (hv : ext ((s.byteAt a).setWidth 32) = v) : WritesRegister i s rd v (s.pc + 4) :=
  load_writes h not_misaligned_one (mappedAccess_one.2 hmap) hv rfl

end

/-! ### The statements -/

/-- Settles O36: the drawn words are the encoder's; a byte access is never misaligned, so only mapping decides. -/
theorem byteLoads : Obligations.ByteLoads := by
  unfold Obligations.ByteLoads
  refine ⟨fun imm rs1 rd => ⟨decodesTo_iForm rfl rfl, decodesTo_iForm rfl rfl⟩, fun s rd rs1 imm => ?_⟩
  refine ⟨fun hmap => ⟨?_, ?_⟩, fun hmap => ⟨?_, ?_⟩⟩
  · exact byte_load_writes (exec_lb rd rs1 imm s) hmap (sext_setWidth (by decide) _)
  · exact byte_load_writes (exec_lbu rd rs1 imm s) hmap (zext_setWidth (by decide) _)
  · exact byte_load_halts (exec_lb rd rs1 imm s) hmap
  · exact byte_load_halts (exec_lbu rd rs1 imm s) hmap

/-- Settles O37: the drawn words are the encoder's; alignment is checked before mapping, and what passes both reads
the two bytes, which the extension takes from the word they were zero-extended to. -/
theorem halfwordLoads : Obligations.HalfwordLoads := by
  unfold Obligations.HalfwordLoads
  refine ⟨fun imm rs1 rd => ⟨decodesTo_iForm rfl rfl, decodesTo_iForm rfl rfl⟩, fun s rd rs1 imm => ?_⟩
  have hlh := exec_lh rd rs1 imm s
  have hlhu := exec_lhu rd rs1 imm s
  refine ⟨fun hmis => ⟨?_, ?_⟩, fun hmis hmap => ⟨?_, ?_⟩, fun hmis hmap => ⟨?_, ?_⟩⟩
  · exact load_halts_misaligned hlh hmis
  · exact load_halts_misaligned hlhu hmis
  · exact load_halts_unmapped hlh hmis hmap
  · exact load_halts_unmapped hlhu hmis hmap
  · exact load_writes hlh hmis hmap (sext_setWidth (by decide) _) rfl
  · exact load_writes hlhu hmis hmap (zext_setWidth (by decide) _) rfl

/-- Settles O38: as for O37; the value is the word read, which holds the four bytes at the address. -/
theorem wordLoad : Obligations.WordLoad := by
  unfold Obligations.WordLoad
  refine ⟨fun imm rs1 rd => decodesTo_iForm rfl rfl, fun s rd rs1 imm => ?_⟩
  have hlw := exec_lw rd rs1 imm s
  refine ⟨fun hmis => ?_, fun hmis hmap => ?_, fun hmis hmap => ⟨_, wordAt_bytesAt s _, ?_⟩⟩
  · exact load_halts_misaligned hlw hmis
  · exact load_halts_unmapped hlw hmis hmap
  · exact load_writes hlw hmis hmap rfl rfl

end Sys2Proof.Machine
end

section
/-! SUPPORT. The proofs of the statements about the stores (45_stores.md), with the lemmas they need. -/

namespace Sys2Proof

/-- The stores share one format and differ in funct3 alone: an instruction that the encoder writes in that format is
what the drawn word decodes to. -/
theorem decodesTo_sForm {i : Instr} {imm : BitVec 12} {rs1 rs2 : RegIdx} {f3 : BitVec 3} {op : BitVec 7}
    (henc : encode i = encodeS (imm.signExtend 32) rs2 rs1 f3 op)
    (hwf : i.wellFormed = fitsImm12 (imm.signExtend 32)) : DecodesTo (sForm imm rs2 rs1 f3 op) i :=
  decodesTo_of_eq_encode ((sForm_eq ..).trans henc.symm) (hwf.trans (fitsImm12_signExtend imm))

end Sys2Proof

namespace Sys2Proof.Machine

/-! ### Each store is `State.store` at its own width -/

section
variable (rs1 rs2 : RegIdx) (imm : Word) (s : State)

theorem exec_sb : exec (.sb rs1 rs2 imm) s = s.store (s.readReg rs1 + imm) .byte (s.readReg rs2) := rfl

theorem exec_sh : exec (.sh rs1 rs2 imm) s = s.store (s.readReg rs1 + imm) .half (s.readReg rs2) := rfl

theorem exec_sw : exec (.sw rs1 rs2 imm) s = s.store (s.readReg rs1 + imm) .word (s.readReg rs2) := rfl

end

/-! ### The errors of a store, in their order (60_exceptions.md R309), and the store that raises none -/

section
variable {i : Instr} {s : State} {a v : Word} {w : Width}

theorem store_halts_misaligned (h : exec i s = s.store a w v) (hmis : MisalignedUnderFault s a w.bytes) :
    HaltsWith i s (.misalignedDataAccess .store a) :=
  store_halts h (accessError_misaligned hmis)

theorem store_halts_unmapped (h : exec i s = s.store a w v) (hmis : ¬ MisalignedUnderFault s a w.bytes)
    (hmap : ¬ MappedAccess s a w.bytes) : HaltsWith i s (.memoryAccessError .store a) :=
  store_halts h (accessError_unmapped hmis hmap)

theorem store_completes (h : exec i s = s.store a w v) (hmis : ¬ MisalignedUnderFault s a w.bytes)
    (hmap : MappedAccess s a w.bytes) : StoresBytes i s a w.bytes v :=
  store_stores (h.trans (store_ok hmis hmap))

end

/-! ### The statements -/

/-- Settles O39: the drawn word is the encoder's; a byte access is never misaligned, so only mapping decides. -/
theorem byteStore : Obligations.ByteStore := by
  unfold Obligations.ByteStore
  refine ⟨fun imm rs1 rs2 => decodesTo_sForm rfl rfl, fun s rs1 rs2 imm => ?_⟩
  have hsb := exec_sb rs1 rs2 imm s
  refine ⟨fun hmap => ?_, fun hmap => ?_⟩
  · exact store_completes hsb not_misaligned_one (mappedAccess_one.2 hmap)
  · exact store_halts_unmapped hsb not_misaligned_one (mt mappedAccess_one.1 hmap)

/-- Settles O40: the drawn words are the encoder's; alignment is checked before mapping, both before any byte is
written, and what passes both writes the bytes of its width. -/
theorem halfwordAndWordStores : Obligations.HalfwordAndWordStores := by
  unfold Obligations.HalfwordAndWordStores
  refine ⟨fun imm rs1 rs2 => ⟨decodesTo_sForm rfl rfl, decodesTo_sForm rfl rfl⟩, fun s rs1 rs2 imm => ?_⟩
  have hsh := exec_sh rs1 rs2 imm s
  have hsw := exec_sw rs1 rs2 imm s
  exact ⟨store_halts_misaligned hsh, store_halts_unmapped hsh, store_completes hsh,
    store_halts_misaligned hsw, store_halts_unmapped hsw, store_completes hsw⟩

end Sys2Proof.Machine
end

section
/-! SUPPORT. The proofs of the statements about the immediate ALU instructions (46_alu_immediate.md), with the lemmas
they need. -/

namespace Sys2Proof

/-! ### The words of the immediate shifts -/

/-- An instruction that the encoder writes in the format of the immediate shifts is what the drawn word decodes to. -/
theorem decodesTo_shiftForm {i : Instr} {shamt : BitVec 5} {rs1 rd : RegIdx} {f7 : BitVec 7} {f3 : BitVec 3}
    {op : BitVec 7} (henc : encode i = encodeShift f7 shamt rs1 f3 rd op) (hwf : i.wellFormed = true) :
    DecodesTo (shiftForm f7 shamt rs1 f3 rd op) i :=
  decodesTo_of_eq_encode ((shiftForm_eq ..).trans henc.symm) hwf

/-- SLLI is the one instruction of its funct3 (30_encoding.md R91, the spec's decision D11): of the decoder's arms for
funct7, the hypothesis on it leaves the last. -/
theorem isDecodeError_of_slli_funct7 {w : Word} (hop : opcodeOf w = 0b0010011#7) (h3 : funct3Of w = 0b001#3)
    (h7 : funct7Of w ≠ 0b0000000#7) : IsDecodeError w :=
  ⟨.unknownFunct7, by simp only [decode_opImm hop, decodeOpImm, h3]⟩

/-- SRLI and SRAI are the two instructions of their funct3 (30_encoding.md R91, the spec's decision D11): again the
hypotheses on funct7 leave the last arm. -/
theorem isDecodeError_of_srli_srai_funct7 {w : Word} (hop : opcodeOf w = 0b0010011#7) (h3 : funct3Of w = 0b101#3)
    (hsrli : funct7Of w ≠ 0b0000000#7) (hsrai : funct7Of w ≠ 0b0100000#7) : IsDecodeError w :=
  ⟨.unknownFunct7, by simp only [decode_opImm hop, decodeOpImm, h3]⟩

end Sys2Proof

namespace Sys2Proof.Machine

/-! ### The shifts bit by bit, and a comparison's result -/

theorem isLeftShift_shiftLeft (a : Word) (n : Nat) : IsLeftShift (a <<< n) a n := by
  intro k hk
  rw [BitVec.getLsbD_shiftLeft, decide_eq_true hk, Bool.true_and, ← decide_not, decide_eq_decide.2 Nat.not_lt]

/-- The bits moved in from above the word read as zero. -/
theorem isLogicalRightShift_ushiftRight (a : Word) (n : Nat) : IsLogicalRightShift (a >>> n) a n := by
  intro k _
  rw [BitVec.getLsbD_ushiftRight, Nat.add_comm n k]
  by_cases hin : k + n < 32
  · simp [hin]
  · simp [hin, BitVec.getLsbD_of_ge a (k + n) (Nat.not_lt.1 hin)]

theorem isArithmeticRightShift_sshiftRight (a : Word) (n : Nat) : IsArithmeticRightShift (a.sshiftRight n) a n := by
  intro k hk
  rw [BitVec.getLsbD_sshiftRight, BitVec.msb_eq_getLsbD_last, Nat.add_comm n k, decide_eq_false (Nat.not_le.2 hk)]
  rfl

theorem boolWord_of_iff {c : Bool} {p : Prop} [Decidable p] (h : c = true ↔ p) :
    boolWord c = if p then 1 else 0 :=
  if_congr h rfl rfl

/-! ### Each immediate ALU instruction retires with one register write -/

section
variable (rd rs1 : RegIdx) (imm : Word) (shamt : BitVec 5) (s : State)

theorem exec_addi : exec (.addi rd rs1 imm) s = s.retireReg rd (s.readReg rs1 + imm) := rfl

theorem exec_slti : exec (.slti rd rs1 imm) s = s.retireReg rd (boolWord (lessSigned (s.readReg rs1) imm)) := rfl

theorem exec_sltiu : exec (.sltiu rd rs1 imm) s = s.retireReg rd (boolWord (lessUnsigned (s.readReg rs1) imm)) := rfl

theorem exec_xori : exec (.xori rd rs1 imm) s = s.retireReg rd (s.readReg rs1 ^^^ imm) := rfl

theorem exec_ori : exec (.ori rd rs1 imm) s = s.retireReg rd (s.readReg rs1 ||| imm) := rfl

theorem exec_andi : exec (.andi rd rs1 imm) s = s.retireReg rd (s.readReg rs1 &&& imm) := rfl

theorem exec_slli : exec (.slli rd rs1 shamt) s = s.retireReg rd (s.readReg rs1 <<< shamt.toNat) := rfl

theorem exec_srli : exec (.srli rd rs1 shamt) s = s.retireReg rd (s.readReg rs1 >>> shamt.toNat) := rfl

theorem exec_srai : exec (.srai rd rs1 shamt) s = s.retireReg rd ((s.readReg rs1).sshiftRight shamt.toNat) := rfl

end

/-! ### The statements -/

/-- Settles O43: the drawn words are the encoder's and any other funct7 is refused; the shifted value is the one the
statement describes bit by bit. -/
theorem immediateShifts : Obligations.ImmediateShifts := by
  unfold Obligations.ImmediateShifts
  refine ⟨fun funct7 shamt rs1 rd => ⟨decodesTo_shiftForm rfl rfl, decodesTo_shiftForm rfl rfl,
    decodesTo_shiftForm rfl rfl, fun hslli => ?_, fun hsrli hsrai => ?_⟩, fun s rd rs1 shamt => ⟨?_, ?_, ?_⟩⟩
  · rw [shiftForm_eq]
    exact isDecodeError_of_slli_funct7 (opcodeOf_encodeShift ..) (funct3Of_encodeShift ..)
      (by rwa [funct7Of_encodeShift])
  · rw [shiftForm_eq]
    exact isDecodeError_of_srli_srai_funct7 (opcodeOf_encodeShift ..) (funct3Of_encodeShift ..)
      (by rwa [funct7Of_encodeShift]) (by rwa [funct7Of_encodeShift])
  · exact ⟨_, isLeftShift_shiftLeft _ _, retireReg_writes (exec_slli rd rs1 shamt s) rfl rfl⟩
  · exact ⟨_, isLogicalRightShift_ushiftRight _ _, retireReg_writes (exec_srli rd rs1 shamt s) rfl rfl⟩
  · exact ⟨_, isArithmeticRightShift_sshiftRight _ _, retireReg_writes (exec_srai rd rs1 shamt s) rfl rfl⟩

/-- Settles O41: the drawn words are the encoder's, and each instruction retires with one register write. -/
theorem immediateArithmeticAndLogic : Obligations.ImmediateArithmeticAndLogic := by
  unfold Obligations.ImmediateArithmeticAndLogic
  refine ⟨fun imm rs1 rd => ⟨decodesTo_iForm rfl rfl, decodesTo_iForm rfl rfl, decodesTo_iForm rfl rfl,
    decodesTo_iForm rfl rfl⟩, fun s rd rs1 imm => ⟨?_, ?_, ?_, ?_⟩⟩
  · exact retireReg_writes (exec_addi rd rs1 imm s) rfl rfl
  · exact retireReg_writes (exec_xori rd rs1 imm s) rfl rfl
  · exact retireReg_writes (exec_ori rd rs1 imm s) rfl rfl
  · exact retireReg_writes (exec_andi rd rs1 imm s) rfl rfl

/-- Settles O42: as for O41; the word written is 1 just when the comparison it is made from holds. -/
theorem immediateComparisons : Obligations.ImmediateComparisons := by
  unfold Obligations.ImmediateComparisons
  refine ⟨fun imm rs1 rd => ⟨decodesTo_iForm rfl rfl, decodesTo_iForm rfl rfl⟩, fun s rd rs1 imm => ⟨?_, ?_⟩⟩
  · exact retireReg_writes (exec_slti rd rs1 imm s) (boolWord_of_iff lessSigned_iff) rfl
  · exact retireReg_writes (exec_sltiu rd rs1 imm s) (boolWord_of_iff lessUnsigned_iff) rfl

end Sys2Proof.Machine
end

section
/-! SUPPORT. The proofs of the statements about the register ALU instructions (47_alu_register.md), with the lemmas
they need. -/

namespace Sys2Proof

/-! ### The words of the R format -/

theorem rForm_eq (f7 : BitVec 7) (rs2 rs1 : RegIdx) (f3 : BitVec 3) (rd : RegIdx) (op : BitVec 7) :
    rForm f7 rs2 rs1 f3 rd op = encodeR f7 rs2 rs1 f3 rd op := rfl

/-- An instruction that the encoder writes in the R format is what the drawn word decodes to. -/
theorem decodesTo_rForm {i : Instr} {rs2 rs1 rd : RegIdx} {f7 : BitVec 7} {f3 : BitVec 3} {op : BitVec 7}
    (henc : encode i = encodeR f7 rs2 rs1 f3 rd op) (hwf : i.wellFormed = true) :
    DecodesTo (rForm f7 rs2 rs1 f3 rd op) i :=
  decodesTo_of_eq_encode ((rForm_eq ..).trans henc.symm) hwf

end Sys2Proof

namespace Sys2Proof.Machine

/-- The remainder modulo 32 that the model shifts by is the field of the low five bits (47_alu_register.md R230, the
spec's decision D16). -/
theorem regShamt_eq_toNat_extractLsb' (s : State) (rs2 : RegIdx) :
    regShamt s rs2 = ((s.readReg rs2).extractLsb' 0 5).toNat := by
  rw [BitVec.extractLsb'_toNat, Nat.shiftRight_zero]
  rfl

/-! ### Each register ALU instruction retires with one register write -/

section
variable (rd rs1 rs2 : RegIdx) (s : State)

theorem exec_add : exec (.add rd rs1 rs2) s = s.retireReg rd (s.readReg rs1 + s.readReg rs2) := rfl

theorem exec_sub : exec (.sub rd rs1 rs2) s = s.retireReg rd (s.readReg rs1 - s.readReg rs2) := rfl

theorem exec_sll : exec (.sll rd rs1 rs2) s = s.retireReg rd (s.readReg rs1 <<< regShamt s rs2) := rfl

theorem exec_slt :
    exec (.slt rd rs1 rs2) s = s.retireReg rd (boolWord (lessSigned (s.readReg rs1) (s.readReg rs2))) := rfl

theorem exec_sltu :
    exec (.sltu rd rs1 rs2) s = s.retireReg rd (boolWord (lessUnsigned (s.readReg rs1) (s.readReg rs2))) := rfl

theorem exec_xor : exec (.xor rd rs1 rs2) s = s.retireReg rd (s.readReg rs1 ^^^ s.readReg rs2) := rfl

theorem exec_srl : exec (.srl rd rs1 rs2) s = s.retireReg rd (s.readReg rs1 >>> regShamt s rs2) := rfl

theorem exec_sra : exec (.sra rd rs1 rs2) s = s.retireReg rd ((s.readReg rs1).sshiftRight (regShamt s rs2)) := rfl

theorem exec_or : exec (.or rd rs1 rs2) s = s.retireReg rd (s.readReg rs1 ||| s.readReg rs2) := rfl

theorem exec_and : exec (.and rd rs1 rs2) s = s.retireReg rd (s.readReg rs1 &&& s.readReg rs2) := rfl

end

/-! ### The statements -/

/-- Settles O46: the drawn words are the encoder's; the model's shift amount is the low five bits of rs2, and the
shifted value is the one the statement describes bit by bit. -/
theorem registerShifts : Obligations.RegisterShifts := by
  unfold Obligations.RegisterShifts
  refine ⟨fun rs2 rs1 rd => ⟨decodesTo_rForm rfl rfl, decodesTo_rForm rfl rfl, decodesTo_rForm rfl rfl⟩,
    fun s rd rs1 rs2 => ?_⟩
  rw [← regShamt_eq_toNat_extractLsb']
  refine ⟨⟨_, isLeftShift_shiftLeft _ _, ?_⟩, ⟨_, isLogicalRightShift_ushiftRight _ _, ?_⟩,
    ⟨_, isArithmeticRightShift_sshiftRight _ _, ?_⟩⟩
  · exact retireReg_writes (exec_sll rd rs1 rs2 s) rfl rfl
  · exact retireReg_writes (exec_srl rd rs1 rs2 s) rfl rfl
  · exact retireReg_writes (exec_sra rd rs1 rs2 s) rfl rfl

/-- Settles O44: the drawn words are the encoder's, and each instruction retires with one register write. -/
theorem registerArithmeticAndLogic : Obligations.RegisterArithmeticAndLogic := by
  unfold Obligations.RegisterArithmeticAndLogic
  refine ⟨fun rs2 rs1 rd => ⟨decodesTo_rForm rfl rfl, decodesTo_rForm rfl rfl, decodesTo_rForm rfl rfl,
    decodesTo_rForm rfl rfl, decodesTo_rForm rfl rfl⟩, fun s rd rs1 rs2 => ⟨?_, ?_, ?_, ?_, ?_⟩⟩
  · exact retireReg_writes (exec_add rd rs1 rs2 s) rfl rfl
  · exact retireReg_writes (exec_sub rd rs1 rs2 s) rfl rfl
  · exact retireReg_writes (exec_xor rd rs1 rs2 s) rfl rfl
  · exact retireReg_writes (exec_or rd rs1 rs2 s) rfl rfl
  · exact retireReg_writes (exec_and rd rs1 rs2 s) rfl rfl

/-- Settles O45: as for O44; the word written is 1 just when the comparison it is made from holds. -/
theorem registerComparisons : Obligations.RegisterComparisons := by
  unfold Obligations.RegisterComparisons
  refine ⟨fun rs2 rs1 rd => ⟨decodesTo_rForm rfl rfl, decodesTo_rForm rfl rfl⟩, fun s rd rs1 rs2 => ⟨?_, ?_⟩⟩
  · exact retireReg_writes (exec_slt rd rs1 rs2 s) (boolWord_of_iff lessSigned_iff) rfl
  · exact retireReg_writes (exec_sltu rd rs1 rs2 s) (boolWord_of_iff lessUnsigned_iff) rfl

end Sys2Proof.Machine
end

section
/-! SUPPORT. The proofs of the statements about multiply and divide (48_muldiv.md), with the lemmas they need. -/

namespace Sys2Proof.Machine

/-! ### The high word of a product -/

/-- The model narrows an exact product, the statement multiplies words of 64 bits: the two agree on bits 63:32. -/
theorem highWord_eq_extractLsb' (product : Int) :
    highWord product = (BitVec.ofInt 64 product).extractLsb' 32 32 := by
  apply BitVec.eq_of_toNat_eq
  rw [highWord, BitVec.toNat_ofInt, BitVec.extractLsb'_toNat, BitVec.toNat_ofInt, Int.shiftRight_eq_div_pow,
    Nat.shiftRight_eq_div_pow]
  omega

/-- `ofInt 64` takes products of integers to products of words; a word read as signed goes to its sign extension. -/
theorem highWord_signed_signed (a b : Word) :
    highWord (a.toInt * b.toInt) = (a.signExtend 64 * b.signExtend 64).extractLsb' 32 32 := by
  rw [highWord_eq_extractLsb', BitVec.ofInt_mul]
  rfl

/-- A word read as unsigned goes to its zero extension. -/
theorem highWord_signed_unsigned (a b : Word) :
    highWord (a.toInt * (b.toNat : Int)) = (a.signExtend 64 * b.setWidth 64).extractLsb' 32 32 := by
  rw [highWord_eq_extractLsb', BitVec.ofInt_mul, BitVec.ofInt_natCast, BitVec.ofNat_toNat]
  rfl

theorem highWord_unsigned_unsigned (a b : Word) :
    highWord ((a.toNat : Int) * (b.toNat : Int)) = (a.setWidth 64 * b.setWidth 64).extractLsb' 32 32 := by
  rw [highWord_eq_extractLsb', BitVec.ofInt_mul, BitVec.ofInt_natCast, BitVec.ofInt_natCast, BitVec.ofNat_toNat,
    BitVec.ofNat_toNat]

/-! ### Unsigned division is that of words, a zero divisor aside -/

theorem divUnsigned_eq_div {a b : Word} (hb : b ≠ 0) : divUnsigned a b = a / b := by
  rw [divUnsigned, if_neg hb, BitVec.udiv_def]

theorem remUnsigned_eq_mod {a b : Word} (hb : b ≠ 0) : remUnsigned a b = a % b := by
  rw [remUnsigned, if_neg hb, BitVec.umod_def]

/-- The quotient and remainder make up the dividend (48_muldiv.md R256, R258). -/
theorem toNat_eq_divUnsigned_mul_add {a b : Word} (hb : b ≠ 0) :
    a.toNat = (divUnsigned a b).toNat * b.toNat + (remUnsigned a b).toNat := by
  rw [divUnsigned_eq_div hb, remUnsigned_eq_mod hb, BitVec.toNat_udiv, BitVec.toNat_umod, Nat.div_add_mod']

theorem toNat_remUnsigned_lt {a b : Word} (hb : b ≠ 0) : (remUnsigned a b).toNat < b.toNat := by
  have hpos : 0 < b.toNat := Nat.pos_of_ne_zero fun hzero => hb (BitVec.eq_of_toNat_eq hzero)
  rw [remUnsigned_eq_mod hb, BitVec.toNat_umod]
  exact Nat.mod_lt _ hpos

/-! ### Signed division is that of exact integers, a zero divisor and the overflow aside -/

/-- The one pair of words whose quotient no word can carry (48_muldiv.md R255). -/
theorem divSigned_overflow {a b : Word} (h : a = 0x80000000 ∧ b = 0xFFFFFFFF) : divSigned a b = 0x80000000 := by
  obtain ⟨rfl, rfl⟩ := h
  rfl

theorem remSigned_overflow {a b : Word} (h : a = 0x80000000 ∧ b = 0xFFFFFFFF) : remSigned a b = 0 := by
  obtain ⟨rfl, rfl⟩ := h
  rfl

section
variable {a b : Word} (hb : b ≠ 0) (hfits : ¬ (a = 0x80000000 ∧ b = 0xFFFFFFFF))
include hb hfits

/-- Without the overflow the rounded quotient is in a word's range, so narrowing keeps it. -/
theorem toInt_divSigned : (divSigned a b).toInt = a.toInt.tdiv b.toInt := by
  rw [divSigned, if_neg hb, if_neg hfits, BitVec.toInt_ofInt, ← BitVec.toInt_sdiv,
    BitVec.toInt_sdiv_of_ne_or_ne a b (not_and_or.1 hfits)]

/-- The remainder is smaller than the divisor, so it is in range whatever the quotient. -/
theorem toInt_remSigned : (remSigned a b).toInt = a.toInt.tmod b.toInt := by
  rw [remSigned, if_neg hb, if_neg hfits, ← Int.tmod_def, ← BitVec.toInt_srem, BitVec.ofInt_toInt]

theorem toInt_eq_divSigned_mul_add : a.toInt = (divSigned a b).toInt * b.toInt + (remSigned a b).toInt := by
  rw [toInt_divSigned hb hfits, toInt_remSigned hb hfits, Int.tdiv_mul_add_tmod]

theorem natAbs_remSigned_lt : (remSigned a b).toInt.natAbs < b.toInt.natAbs := by
  have hpos : 0 < b.toInt.natAbs := Int.natAbs_pos.2 fun hzero => hb (BitVec.eq_of_toInt_eq hzero)
  rw [toInt_remSigned hb hfits, Int.natAbs_tmod]
  exact Nat.mod_lt _ hpos

/-- Rounding toward zero leaves the remainder the dividend's sign (the spec's decision D31). -/
theorem remSigned_neg_iff (hr : (remSigned a b).toInt ≠ 0) : (remSigned a b).toInt < 0 ↔ a.toInt < 0 := by
  rw [toInt_remSigned hb hfits] at hr ⊢
  have hdvd : ¬ b.toInt ∣ a.toInt := mt Int.dvd_iff_tmod_eq_zero.1 hr
  rw [← Int.sign_eq_neg_one_iff_neg, Int.sign_tmod, if_neg hdvd, Int.sign_eq_neg_one_iff_neg]

end

/-! ### Each multiply or divide instruction retires with one register write -/

section
variable (rd rs1 rs2 : RegIdx) (s : State)

theorem exec_mul : exec (.mul rd rs1 rs2) s = s.retireReg rd (s.readReg rs1 * s.readReg rs2) := rfl

theorem exec_mulh :
    exec (.mulh rd rs1 rs2) s = s.retireReg rd (highWord ((s.readReg rs1).toInt * (s.readReg rs2).toInt)) := rfl

theorem exec_mulhsu :
    exec (.mulhsu rd rs1 rs2) s =
      s.retireReg rd (highWord ((s.readReg rs1).toInt * ((s.readReg rs2).toNat : Int))) := rfl

theorem exec_mulhu :
    exec (.mulhu rd rs1 rs2) s =
      s.retireReg rd (highWord (((s.readReg rs1).toNat : Int) * ((s.readReg rs2).toNat : Int))) := rfl

theorem exec_div : exec (.div rd rs1 rs2) s = s.retireReg rd (divSigned (s.readReg rs1) (s.readReg rs2)) := rfl

theorem exec_divu : exec (.divu rd rs1 rs2) s = s.retireReg rd (divUnsigned (s.readReg rs1) (s.readReg rs2)) := rfl

theorem exec_rem : exec (.rem rd rs1 rs2) s = s.retireReg rd (remSigned (s.readReg rs1) (s.readReg rs2)) := rfl

theorem exec_remu : exec (.remu rd rs1 rs2) s = s.retireReg rd (remUnsigned (s.readReg rs1) (s.readReg rs2)) := rfl

end

/-! ### The statements -/

/-- Settles O47: the drawn words are the encoder's, and the high word of each exact product is that of the product of
the extended operands. -/
theorem multiplications : Obligations.Multiplications := by
  unfold Obligations.Multiplications
  refine ⟨fun rs2 rs1 rd => ⟨decodesTo_rForm rfl rfl, decodesTo_rForm rfl rfl, decodesTo_rForm rfl rfl,
    decodesTo_rForm rfl rfl⟩, fun s rd rs1 rs2 => ⟨?_, ?_, ?_, ?_⟩⟩
  · exact retireReg_writes (exec_mul rd rs1 rs2 s) rfl rfl
  · exact retireReg_writes (exec_mulh rd rs1 rs2 s) (highWord_signed_signed _ _) rfl
  · exact retireReg_writes (exec_mulhsu rd rs1 rs2 s) (highWord_signed_unsigned _ _) rfl
  · exact retireReg_writes (exec_mulhu rd rs1 rs2 s) (highWord_unsigned_unsigned _ _) rfl

/-- Settles O48: the drawn words are the encoder's; a zero divisor has a clause of its own, and any other obeys the
laws of division on the unsigned values. -/
theorem unsignedDivision : Obligations.UnsignedDivision := by
  unfold Obligations.UnsignedDivision
  refine ⟨fun rs2 rs1 rd => ⟨decodesTo_rForm rfl rfl, decodesTo_rForm rfl rfl⟩, fun s rd rs1 rs2 => ?_⟩
  have hdivu := exec_divu rd rs1 rs2 s
  have hremu := exec_remu rd rs1 rs2 s
  refine ⟨fun hb => ⟨?_, ?_⟩, fun hb => ⟨_, _, ?_, ?_, toNat_eq_divUnsigned_mul_add hb, toNat_remUnsigned_lt hb⟩⟩
  · exact retireReg_writes hdivu (if_pos hb) rfl
  · exact retireReg_writes hremu (if_pos hb) rfl
  · exact retireReg_writes hdivu rfl rfl
  · exact retireReg_writes hremu rfl rfl

/-- Settles O49: as for O48, with the overflow pair a second clause and the laws of division rounded toward zero. -/
theorem signedDivision : Obligations.SignedDivision := by
  unfold Obligations.SignedDivision
  refine ⟨fun rs2 rs1 rd => ⟨decodesTo_rForm rfl rfl, decodesTo_rForm rfl rfl⟩, fun s rd rs1 rs2 => ?_⟩
  have hdiv := exec_div rd rs1 rs2 s
  have hrem := exec_rem rd rs1 rs2 s
  refine ⟨fun hb => ⟨?_, ?_⟩, fun hover => ⟨?_, ?_⟩, fun hb hfits => ⟨_, _, ?_, ?_,
    toInt_eq_divSigned_mul_add hb hfits, natAbs_remSigned_lt hb hfits, remSigned_neg_iff hb hfits⟩⟩
  · exact retireReg_writes hdiv (if_pos hb) rfl
  · exact retireReg_writes hrem (if_pos hb) rfl
  · exact retireReg_writes hdiv (divSigned_overflow hover) rfl
  · exact retireReg_writes hrem (remSigned_overflow hover) rfl
  · exact retireReg_writes hdiv rfl rfl
  · exact retireReg_writes hrem rfl rfl

end Sys2Proof.Machine
end

section
/-! SUPPORT. The proofs of the statements about ECALL (49_system.md), with the lemmas they need. -/

namespace Sys2Proof.Machine

/-! ### What each call number does (49_system.md R271) -/

/-- What call 2 does: bits 7:0 of x10 go to the console (49_system.md R273). -/
def State.writesConsole (s : State) : Effect :=
  { consoleWrite := some ((s.readReg a0).extractLsb' 0 8), nextPc := s.pc + 4 }

/-- What calls 3 and 93 do: nothing but retire and halt (49_system.md R274). -/
def State.exits (s : State) : Effect := { halt := true, nextPc := s.pc + 4 }

section
variable {s : State}

theorem exec_ecall_blocked (hcall : s.readReg a7 = 1) (hin : s.consoleIn = []) :
    exec .ecall s = .fault .consoleBlocked := by
  show execEcall s = _
  rw [execEcall, if_pos hcall, State.consoleReadCall, hin]

theorem exec_ecall_write (hcall : s.readReg a7 = 2) : exec .ecall s = .next (s.commit s.writesConsole) := by
  show execEcall s = _
  rw [execEcall, hcall]
  rfl

theorem exec_ecall_exit (hcall : s.readReg a7 = 3 ∨ s.readReg a7 = 93) :
    exec .ecall s = .next (s.commit s.exits) := by
  show execEcall s = _
  obtain hcall | hcall := hcall <;> rw [execEcall, hcall] <;> rfl

theorem exec_ecall_unknown (hcall : s.readReg a7 ∉ [1#32, 2#32, 3#32, 93#32]) :
    exec .ecall s = .next (s.raise (.unsupportedSyscall (s.readReg a7))) := by
  simp only [List.mem_cons, List.not_mem_nil, or_false, not_or] at hcall
  obtain ⟨hread, hwrite, hexit3, hexit93⟩ := hcall
  exact (if_neg hread).trans ((if_neg hwrite).trans (if_neg (not_or.2 ⟨hexit3, hexit93⟩)))

end

/-! ### What a call leaves unchanged -/

/-- The host's byte is not part of the frame. -/
theorem ecallFrame_supply {s t : State} {b : Byte} : EcallFrame (s.supply b) t ↔ EcallFrame s t := Iff.rfl

theorem ecallFrame_writesConsole (s : State) : EcallFrame s (s.commit s.writesConsole) :=
  ⟨fun r _ => readReg_congr rfl r, rfl, retired_commit .., byteAt_congr rfl, rfl⟩

theorem ecallFrame_exits (s : State) : EcallFrame s (s.commit s.exits) :=
  ⟨fun r _ => readReg_congr rfl r, rfl, retired_commit .., byteAt_congr rfl, rfl⟩

/-! ### The outcome of a run (10_state.md R37) -/

theorem outcome_of_running {s : State} (h : s.status = .running) : s.outcome = none := if_pos h

theorem outcome_of_halted {s : State} (h : s.status ≠ .running) : s.outcome = some (s.instret, s.status) := if_neg h

/-! ### The statements -/

/-- Settles O51: with no byte there is no step; the byte supplied is then the oldest one, and call 1 reads it. -/
theorem ecallBlocksUntilAByteIsSupplied : Obligations.EcallBlocksUntilAByteIsSupplied := by
  unfold Obligations.EcallBlocksUntilAByteIsSupplied
  intro s b hcall hin
  have hsupplied : (s.supply b).consoleIn = b :: [] := by rw [supply_consoleIn, hin]; rfl
  exact ⟨exec_ecall_blocked hcall hin, _, exec_ecall_read hcall hsupplied, readReg_a0_readsConsole _ b,
    consoleIn_readsConsole hsupplied, rfl, rfl, ecallFrame_supply.1 (ecallFrame_readsConsole _ b)⟩

/-- Settles O52: call 2 commits one effect, which writes to the console alone. -/
theorem ecallWritesACharacter : Obligations.EcallWritesACharacter := by
  unfold Obligations.EcallWritesACharacter
  intro s hcall
  exact ⟨_, exec_ecall_write hcall, rfl, rfl, readReg_congr rfl, rfl, ecallFrame_writesConsole s⟩

/-- Settles O53: both exit calls commit one effect, which halts; the commit has counted it when the outcome is read. -/
theorem ecallExits : Obligations.EcallExits := by
  unfold Obligations.EcallExits
  intro s hcall
  exact ⟨_, exec_ecall_exit hcall, rfl, outcome_of_halted nofun, readReg_congr rfl, ⟨rfl, rfl⟩, ecallFrame_exits s⟩

/-- Settles O54: a number that is none of the four is raised as the error. -/
theorem ecallRefusesUnknownNumbers : Obligations.EcallRefusesUnknownNumbers := by
  unfold Obligations.EcallRefusesUnknownNumbers
  exact fun s hcall => exec_ecall_unknown hcall

end Sys2Proof.Machine
end

section
/-! SUPPORT. The proof of the statement about the status codes and the outcome (60_exceptions.md). -/

namespace Sys2Proof.Machine

/-- Settles O55: the codes are those of `Status.code`, and the status alone decides whether there is an outcome. -/
theorem statusCodesAndOutcome : Obligations.StatusCodesAndOutcome := by
  unfold Obligations.StatusCodesAndOutcome
  exact ⟨fun w a n k j d => ⟨rfl, rfl, rfl, rfl, rfl, rfl, rfl⟩, fun s => ⟨outcome_of_running, outcome_of_halted⟩⟩

end Sys2Proof.Machine
end

section
/-! SUPPORT. The proofs of the statements about the start of a session (70_reset_and_hazards.md), with the lemmas they
need. -/

namespace Sys2Proof

/-! ### The word the loader places -/

theorem decode_of_decodeTableWord {nbits w : Nat} {i : Instr} (h : decodeTableWord nbits w = some i) :
    decode (BitVec.ofNat 32 (w % 2 ^ nbits)) = .ok i := by
  simp only [decodeTableWord, decodeBytes, wordOfBytes_byteOfWord] at h
  generalize decode (BitVec.ofNat 32 (w % 2 ^ nbits)) = answer at h ⊢
  cases answer with
  | ok j => cases h; rfl
  | error r => cases h

end Sys2Proof

namespace Sys2Proof.Machine

/-! ### The image in memory -/

/-- Image bytes are placed in turn, so the last one named is written over the others. -/
theorem ofImage_concat (image : List (Word × Byte)) (a : Word) (b : Byte) :
    Memory.ofImage (image ++ [(a, b)]) = Memory.write (Memory.ofImage image) a.toNat b := by
  simp [Memory.ofImage]

section
variable {s t : State} {a : Word} {b : Byte} (h : t.mem = Memory.write s.mem a.toNat b)
include h

theorem byteAt_write_same : t.byteAt a = b := by
  rw [State.byteAt, h, read?_write_same, Option.getD_some]

theorem byteAt_write_other {a' : Word} (ha : a' ≠ a) : t.byteAt a' = s.byteAt a' := by
  rw [State.byteAt, h, read?_write_other _ _ (mt BitVec.eq_of_toNat_eq ha), State.byteAt]

end

/-! ### The start of a session -/

section
variable (entry : Word) (p : Params) (image : List (Word × Byte)) (input : List Byte) (sink : Bool)

theorem readReg_start (r : RegIdx) : (State.start entry p image input sink).readReg r = 0 := by
  simp [State.readReg, State.start]

/-- A sink attached at the start has received no record, and the counter is zero. -/
theorem trace_start {records : List TraceRecord} (h : (State.start entry p image input sink).trace = some records) :
    records = [] := by
  cases sink with
  | true => exact (Option.some.inj h).symm
  | false => cases h

theorem start_inv (h : entry.toNat % 4 = 0) : (State.start entry p image input sink).Inv := by
  refine ⟨by simp [State.start], h, ofImage_wf image, fun records htrace => ?_⟩
  rw [trace_start entry p image input sink htrace]
  rfl

theorem mem_start_concat (a : Word) (b : Byte) :
    (State.start entry p (image ++ [(a, b)]) input sink).mem =
      Memory.write (State.start entry p image input sink).mem a.toNat b :=
  ofImage_concat image a b

end

theorem reset_eq_start :
    State.reset = State.start 0 { mapped := [{ base := 0, size := 2 ^ 32 }], misaligned := .fault } [] [] false := rfl

/-! ### The statements -/

/-- Settles O24: the placed word is the one fetched, and `step` is `exec` of what it decodes to. -/
theorem placedWordIsRunNext : Obligations.PlacedWordIsRunNext := by
  unfold Obligations.PlacedWordIsRunNext
  exact fun s w i h => step_exec rfl (fetch_placeWord s _) (decode_of_decodeTableWord h)

/-- Settles O14: an image is placed in canonical form, and an attached sink starts empty; the reset is one such start. -/
theorem sessionStartsInTheInvariant : Obligations.SessionStartsInTheInvariant := by
  unfold Obligations.SessionStartsInTheInvariant
  refine ⟨?_, start_inv⟩
  rw [reset_eq_start]
  exact start_inv 0 _ [] [] false rfl

/-- Settles O15: the fields are those of `State.start`, and the last image byte is a memory write. -/
theorem sessionStartState : Obligations.SessionStartState := by
  unfold Obligations.SessionStartState
  refine ⟨fun entry p image input sink => ⟨readReg_start entry p image input sink, rfl, rfl, rfl, rfl, rfl, rfl,
    fun a b => ?_⟩, reset_eq_start⟩
  have hmem := mem_start_concat entry p image input sink a b
  exact ⟨byteAt_write_same hmem, fun a' => byteAt_write_other hmem⟩

end Sys2Proof.Machine
end
